-- ==== Sys2Proof/Word.lean ====
section
/-! DEFINITION. The word types of the block (00_scope.md R6, R7, R8, R12): what the spec treats as bits of a stated width. -/

namespace Sys2Proof

/-- A command word: `CMD_BITS` = 16 (R7, R70). -/
abbrev CmdWord := BitVec 16

/-- A character: "A character is one 8-bit byte" (R12). -/
abbrev Byte := BitVec 8

/-- A symbol: `SYM_BITS` = 5 (R6), "an integer in [0,31]". -/
abbrev Symbol := BitVec 5

/-- An engine value, a response value or a register read: `CHK_BITS` = `VAL_BITS` = 32 (R6, R7). -/
abbrev Word := BitVec 32

end Sys2Proof
end

