-- ==== Sys2Proof/Config.lean ====
section
/-! DEFINITION. The parameters of the block (00_scope.md R6, R7). "A model of this block takes them as constants" (R7). The spec leaves no value open, so there is no free value here. -/

namespace Sys2Proof.Config

/-- `PM_INIT` (R6): the accumulator's initial value. -/
abbrev pmInit : Word := 0x00000001#32

/-- `CK_CONST` (R6): XORed in by createChecksum, and the residue verifyChecksum requires. -/
abbrev ckConst : Word := 0x00000001#32

/-- `CK_LEN` (R6): the number of checksum symbols. -/
abbrev ckLen : Nat := 6

/-- `MIN_LEN` (R6). -/
abbrev minLen : Nat := 8

/-- `MAX_LEN` (R6). -/
abbrev maxLen : Nat := 90

/-- `CHAR_LO` (R6). -/
abbrev charLo : Nat := 33

/-- `CHAR_HI` (R6). -/
abbrev charHi : Nat := 126

/-- `SEP` (R6): the separator `'1'`, code 0x31. -/
abbrev sepChar : Byte := 0x31#8

/-- `STR_CAP` (R7). -/
abbrev strCap : Nat := 90

/-- `HRP_CAP` (R7). -/
abbrev hrpCap : Nat := 83

/-- `SYM_CAP` (R7). -/
abbrev symCap : Nat := 88

/-- `LEN_MAX` (R7): where the 8-bit length counters saturate. -/
abbrev lenMax : Nat := 255

/-- `SENTINEL` (R7, R145): the pattern absorbed for a character outside the alphabet. -/
abbrev sentinel : Word := 0xFFFFFFFF#32

end Sys2Proof.Config
end

