-- ==== Sys2Proof/Syntax.lean ====
section
/-! DEFINITION. The commands of the set B32C-1, one constructor per row of the opcode map (30_encoding.md R73). -/

namespace Sys2Proof

/-- A command. Formats N and R carry no operand, M a 3-bit mask, B a byte, X an index.
Format V keeps the whole `arg` byte: its row is selected by `op` and `sub` alone, and `arg[7:5] != 000` is a
`SymbolRange` of the selected command, not another command (R74 step 3, log 9). -/
inductive Instr where
  /-- `NOP` (R160) -/
  | nop
  /-- `RST` (R161) -/
  | rst
  /-- `PM.INIT` (R110) -/
  | pmInit
  /-- `PM.ABS v` (R111) -/
  | pmAbs (arg : Byte)
  /-- `PM.HRPX` (R112) -/
  | pmHrpx
  /-- `CK.CREATE` (R113) -/
  | ckCreate
  /-- `CK.VERIFY` (R114) -/
  | ckVerify
  /-- `ENC.RUN` (R131) -/
  | encRun
  /-- `DEC.RUN` (R140) -/
  | decRun
  /-- `CLR m` (R162) -/
  | clr (m : BitVec 3)
  /-- `PUSH.H b` (R163) -/
  | pushH (b : Byte)
  /-- `PUSH.S v` (R164) -/
  | pushS (arg : Byte)
  /-- `PUSH.T b` (R165) -/
  | pushT (b : Byte)
  /-- `RD.H i` (R166) -/
  | rdH (i : Byte)
  /-- `RD.S i` (R167) -/
  | rdS (i : Byte)
  /-- `RD.T i` (R168) -/
  | rdT (i : Byte)
  /-- `RD.K i` (R169) -/
  | rdK (i : Byte)
  /-- `RDREG STATUS` (R170) -/
  | rdregStatus
  /-- `RDREG CHK` (R171) -/
  | rdregChk
  /-- `RDREG HLEN` (R172) -/
  | rdregHlen
  /-- `RDREG SLEN` (R173) -/
  | rdregSlen
  /-- `RDREG TLEN` (R174) -/
  | rdregTlen
deriving DecidableEq, Repr

end Sys2Proof
end

