-- ==== Sys2Proof/WellFormed.lean ====
section
/-! DEFINITION. What the formats demand of an operand beyond its width (30_encoding.md R71). -/

namespace Sys2Proof

/-- Format V: "`arg[7:5]` must be 000" (R71). Every other format's operand is any value of its field: a mask of
3 bits, any byte, "an index 0..255". An ill-formed command still has a word and a meaning: it ends with
`SymbolRange` (R74 step 3, log 9). -/
def Instr.wf : Instr → Bool
  | .pmAbs arg => arg.toNat < 32
  | .pushS arg => arg.toNat < 32
  | .nop | .rst | .pmInit | .pmHrpx | .ckCreate | .ckVerify | .encRun | .decRun => true
  | .clr _ | .pushH _ | .pushT _ | .rdH _ | .rdS _ | .rdT _ | .rdK _ => true
  | .rdregStatus | .rdregChk | .rdregHlen | .rdregSlen | .rdregTlen => true

end Sys2Proof
end

