-- ==== Sys2Proof/Decode.lean ====
section
/-! DEFINITION. The command decoder (30_encoding.md R70 to R75), the encoder, and the opcode map as rows (R73). -/

namespace Sys2Proof

/-- `op`, bits 15:12 (R70). -/
def opField (w : CmdWord) : BitVec 4 := w.extractLsb' 12 4

/-- `sub`, bits 11:8 (R70). -/
def subField (w : CmdWord) : BitVec 4 := w.extractLsb' 8 4

/-- `arg`, bits 7:0 (R70). -/
def argField (w : CmdWord) : Byte := w.extractLsb' 0 8

/-- Why a word is illegal: the two steps of R74 that refuse one. Both end as `IllegalCommand` (R75). -/
inductive DecodeError where
  /-- R74 step 1: no row of the opcode map matches. -/
  | noRow
  /-- R74 step 2: format N, M or R with `arg != 0x00`. -/
  | argNotZero
deriving DecidableEq, Repr

/-- R74 step 2 for a word of format N, M or R whose row is `i`. -/
def requireZeroArg (w : CmdWord) (i : Instr) : Except DecodeError Instr :=
  if argField w = 0#8 then .ok i else .error .argNotZero

/-- R74 steps 1 and 2, total on every word. Steps 3 and 4 belong to the command's execution. -/
def decode (w : CmdWord) : Except DecodeError Instr :=
  match (opField w).toNat, (subField w).toNat with
  | 0, 0 => requireZeroArg w .nop
  | 0, 1 => requireZeroArg w .rst
  | 1, 0 => requireZeroArg w .pmInit
  | 1, 1 => .ok (.pmAbs (argField w))
  | 1, 2 => requireZeroArg w .pmHrpx
  | 2, 0 => requireZeroArg w .ckCreate
  | 2, 1 => requireZeroArg w .ckVerify
  | 3, 0 => requireZeroArg w .encRun
  | 3, 1 => requireZeroArg w .decRun
  | 4, _ =>
    if (subField w).getLsbD 3 = false then requireZeroArg w (.clr ((subField w).extractLsb' 0 3))
    else .error .noRow
  | 5, 0 => .ok (.pushH (argField w))
  | 5, 1 => .ok (.pushS (argField w))
  | 5, 2 => .ok (.pushT (argField w))
  | 6, 0 => .ok (.rdH (argField w))
  | 6, 1 => .ok (.rdS (argField w))
  | 6, 2 => .ok (.rdT (argField w))
  | 6, 3 => .ok (.rdK (argField w))
  | 7, 0 => requireZeroArg w .rdregStatus
  | 7, 1 => requireZeroArg w .rdregChk
  | 7, 2 => requireZeroArg w .rdregHlen
  | 7, 3 => requireZeroArg w .rdregSlen
  | 7, 4 => requireZeroArg w .rdregTlen
  | _, _ => .error .noRow

/-- The three fields of R70 side by side. -/
def assembleFields (op sub : BitVec 4) (arg : Byte) : CmdWord := op ++ sub ++ arg

/-- The word of a command (R73, column "Word"). -/
def encode : Instr → CmdWord
  | .nop => assembleFields 0 0 0
  | .rst => assembleFields 0 1 0
  | .pmInit => assembleFields 1 0 0
  | .pmAbs arg => assembleFields 1 1 arg
  | .pmHrpx => assembleFields 1 2 0
  | .ckCreate => assembleFields 2 0 0
  | .ckVerify => assembleFields 2 1 0
  | .encRun => assembleFields 3 0 0
  | .decRun => assembleFields 3 1 0
  | .clr m => assembleFields 4 (m.setWidth 4) 0
  | .pushH b => assembleFields 5 0 b
  | .pushS arg => assembleFields 5 1 arg
  | .pushT b => assembleFields 5 2 b
  | .rdH i => assembleFields 6 0 i
  | .rdS i => assembleFields 6 1 i
  | .rdT i => assembleFields 6 2 i
  | .rdK i => assembleFields 6 3 i
  | .rdregStatus => assembleFields 7 0 0
  | .rdregChk => assembleFields 7 1 0
  | .rdregHlen => assembleFields 7 2 0
  | .rdregSlen => assembleFields 7 3 0
  | .rdregTlen => assembleFields 7 4 0

/-- A row of the opcode map: a word belongs to the row when `word &&& mask = pattern`. -/
structure OpcodeRow where
  mask : CmdWord
  pattern : CmdWord
deriving DecidableEq, Repr

/-- The row of R73 (and of opcode_table.json, "mask" and "match") a command stands in. -/
def opcodeRow : Instr → OpcodeRow
  | .nop => ⟨0xFFFF#16, 0x0000#16⟩
  | .rst => ⟨0xFFFF#16, 0x0100#16⟩
  | .pmInit => ⟨0xFFFF#16, 0x1000#16⟩
  | .pmAbs _ => ⟨0xFF00#16, 0x1100#16⟩
  | .pmHrpx => ⟨0xFFFF#16, 0x1200#16⟩
  | .ckCreate => ⟨0xFFFF#16, 0x2000#16⟩
  | .ckVerify => ⟨0xFFFF#16, 0x2100#16⟩
  | .encRun => ⟨0xFFFF#16, 0x3000#16⟩
  | .decRun => ⟨0xFFFF#16, 0x3100#16⟩
  | .clr _ => ⟨0xF8FF#16, 0x4000#16⟩
  | .pushH _ => ⟨0xFF00#16, 0x5000#16⟩
  | .pushS _ => ⟨0xFF00#16, 0x5100#16⟩
  | .pushT _ => ⟨0xFF00#16, 0x5200#16⟩
  | .rdH _ => ⟨0xFF00#16, 0x6000#16⟩
  | .rdS _ => ⟨0xFF00#16, 0x6100#16⟩
  | .rdT _ => ⟨0xFF00#16, 0x6200#16⟩
  | .rdK _ => ⟨0xFF00#16, 0x6300#16⟩
  | .rdregStatus => ⟨0xFFFF#16, 0x7000#16⟩
  | .rdregChk => ⟨0xFFFF#16, 0x7100#16⟩
  | .rdregHlen => ⟨0xFFFF#16, 0x7200#16⟩
  | .rdregSlen => ⟨0xFFFF#16, 0x7300#16⟩
  | .rdregTlen => ⟨0xFFFF#16, 0x7400#16⟩

/-- Whether `w` belongs to the row `r`. -/
def OpcodeRow.holds (r : OpcodeRow) (w : CmdWord) : Bool := w &&& r.mask == r.pattern

/-- One command of every row, so that the 22 rows can be listed. -/
def oneOfEachRow : List Instr :=
  [.nop, .rst, .pmInit, .pmAbs 0, .pmHrpx, .ckCreate, .ckVerify, .encRun, .decRun, .clr 0, .pushH 0]
    ++ [.pushS 0, .pushT 0, .rdH 0, .rdS 0, .rdT 0, .rdK 0]
    ++ [.rdregStatus, .rdregChk, .rdregHlen, .rdregSlen, .rdregTlen]

/-- The 22 rows of R73. -/
def opcodeRows : List OpcodeRow := oneOfEachRow.map opcodeRow

/-- The command word whose bits, numbered as spec/opcode_table.json numbers them, are `w` in `nbits` bits. Every
command is one 16-bit word (R70, R77), and the block has no byte order (20_memory.md R52): the word is the number
itself (log 14). -/
def tableWord (nbits w : Nat) : CmdWord := BitVec.ofNat 16 (w % 2 ^ nbits)

/-- What this model's decoder reads from an instruction whose bits are `w` (`none` where it refuses). -/
def decodeTableWord (nbits w : Nat) : Option Instr :=
  match decode (tableWord nbits w) with
  | .ok i => some i
  | .error _ => none

end Sys2Proof
end

