-- ==== Sys2Proof/Machine/State.lean ====
section
/-! DEFINITION. The architectural state (10_state.md R20) as plain data, the host's side of the interface, the outcomes' reason types, and the state after reset (R38). -/

namespace Sys2Proof.Machine

/-- A buffer and its length counter (R23 to R26). `cells` holds exactly the cells below the valid count,
`min(len, capacity)`; a cell at or above it holds no value and is not represented (R39, log 6). `len` counts pushes,
those past the capacity too, up to 255. -/
structure Buffer (w : Nat) where
  cells : List (BitVec w)
  len : BitVec 8
deriving DecidableEq, Repr

/-- The six checksum registers `CKS[0..5]`, `k0` being `CKS[0]` (R22). -/
structure Cks where
  k0 : Symbol
  k1 : Symbol
  k2 : Symbol
  k3 : Symbol
  k4 : Symbol
  k5 : Symbol
deriving DecidableEq, Repr

/-- What a command answers: a 4-bit result code and a 32-bit value (30_encoding.md R78). -/
structure Response where
  err : BitVec 4
  val : Word
deriving DecidableEq, Repr

/-- What can happen to the block from outside: the host presents a command word (20_memory.md R62), or the
integrating system resets the block between two commands (70_reset_and_hazards.md R200, log 4). -/
inductive HostEvent where
  | command (w : CmdWord)
  | hardwareReset
deriving DecidableEq, Repr

/-- The state. `chk` to `pflt` are the block's (R20). `pending` and `responses` are the model's own: the host's side
of the interface, neither read nor kept by the block (R37, log 1, log 2). -/
structure State where
  /-- `CHK` (R21) -/
  chk : Word
  /-- `CKS[0..5]` (R22) -/
  cks : Cks
  /-- `HRP` and `HLEN` (R23) -/
  hrp : Buffer 8
  /-- `SYM` and `SLEN` (R24) -/
  sym : Buffer 5
  /-- `STR` and `TLEN` (R25) -/
  str : Buffer 8
  /-- `STATUS.ERR` (R27, R28) -/
  err : BitVec 4
  /-- `STATUS.PFLT` (R27, R29) -/
  pflt : Bool
  /-- the host events still to come, the next one first (log 1) -/
  pending : List HostEvent
  /-- the responses given so far, the oldest first (log 2) -/
  responses : List Response
deriving DecidableEq, Repr

/-- The block never stops with a fault: `exec` "is total: every one of the 65,536 command words has a defined result
in every state" (00_scope.md R11). So there is no reason to name (log 8). -/
inductive Fault where
deriving DecidableEq, Repr

/-- Why a step could have no meaning. No arm of `exec` raises it: every command is modelled (log 8). -/
inductive Refusal where
  /-- An instruction without a meaning in this model, by its mnemonic: raised by no arm. Safe: a run would stop. -/
  | notModelled (mnemonic : String)
deriving DecidableEq, Repr

/-- The outcome of one step of this machine. -/
abbrev Result := Host.Outcome State Fault Refusal

/-- The state after hardware reset and after `RST` (R38, R201): `CHK` = 1, everything else 0 or empty; no event
pending and no response given (log 1, log 2, log 5). -/
def State.reset : State where
  chk := 0x00000001#32
  cks := ⟨0#5, 0#5, 0#5, 0#5, 0#5, 0#5⟩
  hrp := ⟨[], 0#8⟩
  sym := ⟨[], 0#8⟩
  str := ⟨[], 0#8⟩
  err := 0#4
  pflt := false
  pending := []
  responses := []

end Sys2Proof.Machine
end

