-- ==== Sys2Proof/Machine/Codes.lean ====
section
/-! DEFINITION. The result codes and their two classes (60_exceptions.md R180, R181). -/

namespace Sys2Proof.Machine

/-- The thirteen result codes of R180, in the table's order; 13 to 15 are never produced. -/
inductive Code where
  | ok
  | tooShort
  | tooLong
  | outOfRangeCharacter
  | mixedCase
  | missingSeparator
  | emptyHRP
  | checksumTooShort
  | invalidChecksum
  | operandTooLong
  | symbolRange
  | indexRange
  | illegalCommand
deriving DecidableEq, Repr

/-- The 4-bit number of a code (R180). -/
def Code.bits : Code → BitVec 4
  | .ok => 0#4
  | .tooShort => 1#4
  | .tooLong => 2#4
  | .outOfRangeCharacter => 3#4
  | .mixedCase => 4#4
  | .missingSeparator => 5#4
  | .emptyHRP => 6#4
  | .checksumTooShort => 7#4
  | .invalidChecksum => 8#4
  | .operandTooLong => 9#4
  | .symbolRange => 10#4
  | .indexRange => 11#4
  | .illegalCommand => 12#4

/-- Codes 10 to 12: "the host presented a word or an operand the interface does not allow" (R181). -/
def Code.isProtocolFault : Code → Bool
  | .symbolRange | .indexRange | .illegalCommand => true
  | .ok | .tooShort | .tooLong | .outOfRangeCharacter | .mixedCase | .missingSeparator => false
  | .emptyHRP | .checksumTooShort | .invalidChecksum | .operandTooLong => false

end Sys2Proof.Machine
end

