-- ==== Sys2Proof/Machine/Flags.lean ====
section
/-! DEFINITION. The status register (10_state.md R27 to R29, R32): there are no condition codes; `ERR` and `PFLT` are the only bits that behave like flags. -/

namespace Sys2Proof.Machine

/-- Writes `STATUS.ERR` (R28). -/
def State.setErr (s : State) (c : Code) : State := { s with err := c.bits }

/-- Sets the sticky bit `STATUS.PFLT` (R29). -/
def State.setPflt (s : State) : State := { s with pflt := true }

/-- What a failure records (R181, R182): a protocol fault sets `PFLT`, an operation result is written to `ERR`. -/
def State.recordFailure (s : State) (c : Code) : State :=
  if c.isProtocolFault then s.setPflt else s.setErr c

/-- `STATUS` as `RDREG STATUS` reads it (R27, R170): `zext_32(PFLT) << 4 | zext_32(ERR)`; bits 31:5 are 0. -/
def statusWord (s : State) : Word :=
  ((BitVec.ofBool s.pflt).setWidth 32 <<< 4) ||| s.err.setWidth 32

end Sys2Proof.Machine
end

