-- ==== Sys2Proof/Machine/Tables.lean ====
section
/-! DEFINITION. The constant tables GEN, CHARSET and REV (10_state.md R33 to R35): read-only, not state. -/

namespace Sys2Proof.Machine

/-- `GEN[0..4]` (R33). -/
def genTable : List Word :=
  [0x3B6A57B2#32, 0x26508E6D#32, 0x1EA119FA#32, 0x3D4233DD#32, 0x2A1462B3#32]

/-- `GEN[i]`. -/
def gen (i : Nat) : Word := genTable.getD i 0#32

/-- `CHARSET[0..31]` (R34): the codes of `qpzry9x8gf2tvdw0s3jn54khce6mua7l` (log 10). -/
def charsetTable : List Byte :=
  [0x71#8, 0x70#8, 0x7A#8, 0x72#8, 0x79#8, 0x39#8, 0x78#8, 0x38#8]
    ++ [0x67#8, 0x66#8, 0x32#8, 0x74#8, 0x76#8, 0x64#8, 0x77#8, 0x30#8]
    ++ [0x73#8, 0x33#8, 0x6A#8, 0x6E#8, 0x35#8, 0x34#8, 0x6B#8, 0x68#8]
    ++ [0x63#8, 0x65#8, 0x36#8, 0x6D#8, 0x75#8, 0x61#8, 0x37#8, 0x6C#8]

/-- `CHARSET[s]`; every symbol is an index of the table. -/
def charset (s : Symbol) : Byte := charsetTable.getD s.toNat 0#8

/-- Rows 0x30, 0x60 and 0x70 of the table of R35, `none` being `INVALID`; the other five rows are all `INVALID`. -/
def revRow3 : List (Option Symbol) :=
  [some 15, none, some 10, some 17, some 21, some 20, some 26, some 30]
    ++ [some 7, some 5, none, none, none, none, none, none]

def revRow6 : List (Option Symbol) :=
  [none, some 29, none, some 24, some 13, some 25, some 9, some 8]
    ++ [some 23, none, some 18, some 22, some 31, some 27, some 19, none]

def revRow7 : List (Option Symbol) :=
  [some 1, some 0, some 3, some 16, some 11, some 28, some 12, some 14]
    ++ [some 6, some 4, some 2, none, none, none, none, none]

/-- `REV[0..127]` (R35), eight rows of sixteen. -/
def revTable : List (Option Symbol) :=
  List.replicate 48 none ++ revRow3 ++ List.replicate 32 none ++ revRow6 ++ revRow7

/-- `REV[c]` for a 7-bit code; `none` is `INVALID`, a value distinct from every symbol (R35). -/
def rev (c : BitVec 7) : Option Symbol := (revTable.getD c.toNat none)

end Sys2Proof.Machine
end

