-- ==== Sys2Proof/Machine/PolyMod.lean ====
section
/-! DEFINITION. The functions of the polynomial-modulus engine (40_polymod_engine.md R100 to R106). -/

namespace Sys2Proof.Machine

/-- The table entries that `top` selects: bit `i` selects `GEN[i]` (R100, R101). -/
def selectGen (top : BitVec 5) (t : Word) : Word :=
  [0, 1, 2, 3, 4].foldl (fun t i => if top.getLsbD i then t ^^^ gen i else t) t

/-- `absorb(chk, v)` (R100): `top` is `chk[29:25]`, bits 31:30 are dropped (R101). -/
def absorb (chk v : Word) : Word :=
  selectGen (chk.extractLsb' 25 5) ((((chk.extractLsb' 0 25).setWidth 32) <<< 5) ^^^ v)

/-- The fold of `absorb` from any accumulator; R103's last sentence. -/
def absorbAll (chk : Word) (values : List Word) : Word := values.foldl absorb chk

/-- `polyMod(values)` (R103). -/
def polyMod (values : List Word) : Word := absorbAll Config.pmInit values

/-- `hrpExpand(h)` (R104): the high parts, a 0, the low parts, as the 32-bit values the engine absorbs. -/
def hrpExpand (h : List Byte) : List Word :=
  h.map (fun (c : Byte) => (c >>> 5).setWidth 32) ++ [0#32] ++ h.map (fun (c : Byte) => (c &&& 31#8).setWidth 32)

/-- Symbols as the engine absorbs them: `zext_32` of each (R105, R106). -/
def zextSymbols (d : List Symbol) : List Word := d.map (·.setWidth 32)

/-- What createChecksum absorbs (R105): the expanded HRP, the payload, six zeros. -/
def createValues (h : List Byte) (d : List Symbol) : List Word :=
  hrpExpand h ++ zextSymbols d ++ List.replicate Config.ckLen 0#32

/-- What verifyChecksum absorbs (R106). -/
def verifyValues (h : List Byte) (d : List Symbol) : List Word := hrpExpand h ++ zextSymbols d

/-- The six 5-bit groups of a 30-bit value, most significant first (R105, R52). -/
def Cks.ofWord (pm : Word) : Cks :=
  ⟨pm.extractLsb' 25 5, pm.extractLsb' 20 5, pm.extractLsb' 15 5,
   pm.extractLsb' 10 5, pm.extractLsb' 5 5, pm.extractLsb' 0 5⟩

/-- `CKS[0], ..., CKS[5]`. -/
def Cks.toList (k : Cks) : List Symbol := [k.k0, k.k1, k.k2, k.k3, k.k4, k.k5]

/-- createChecksum's raw polynomial value `p` (R105), before the XOR with 1. -/
def createResidue (h : List Byte) (d : List Symbol) : Word := polyMod (createValues h d)

/-- `createChecksum(h, d)` (R105). -/
def createChecksum (h : List Byte) (d : List Symbol) : Cks :=
  Cks.ofWord (createResidue h d ^^^ Config.ckConst)

/-- `verifyChecksum(h, dc)` (R106) for any 32-bit values `dc`: all 32 bits are compared. -/
def verifyChecksum (h : List Byte) (dc : List Word) : Bool :=
  polyMod (hrpExpand h ++ dc) == Config.ckConst

end Sys2Proof.Machine
end

