-- ==== Sys2Proof/Machine/Ops.lean ====
section
/-! DEFINITION. The named operations over buffers, registers and the host's interface, and raising a failure, the block's only "exception" (60_exceptions.md R186). -/

namespace Sys2Proof.Machine

/-! ### Buffers (10_state.md R26, R39) -/

/-- The valid count `min(L, CAP)` (R26). -/
def Buffer.count {w : Nat} (cap : Nat) (b : Buffer w) : Nat := min b.len.toNat cap

/-- The valid contents: the cells below the valid count, the only ones a command reads (R39). -/
def Buffer.valid {w : Nat} (cap : Nat) (b : Buffer w) : List (BitVec w) := b.cells.take (b.count cap)

/-- The canonical form: `cells` has exactly one entry per cell below the valid count (R39, U6; log 6). -/
abbrev Buffer.wf {w : Nat} (cap : Nat) (b : Buffer w) : Prop := b.cells.length = b.count cap

/-- Reads one cell; `none` where the cell holds no value (R39, R55). -/
def Buffer.read {w : Nat} (cap : Nat) (b : Buffer w) (i : Nat) : Option (BitVec w) := (b.valid cap)[i]?

/-- An emptied buffer: the counter is 0 and no cell holds a value (R39, R162). -/
def Buffer.empty {w : Nat} : Buffer w := ⟨[], 0#8⟩

/-- A push (R26): `if L < CAP then B[L] <- value; L <- min(L + 1, 255)`. -/
def Buffer.push {w : Nat} (cap : Nat) (b : Buffer w) (v : BitVec w) : Buffer w where
  cells := if b.len.toNat < cap then b.cells ++ [v] else b.cells
  len := BitVec.ofNat 8 (min (b.len.toNat + 1) Config.lenMax)

/-- A buffer a RUN command has written: cells `0..|l|-1`, the counter `|l|` (R131, R146). -/
def Buffer.ofList {w : Nat} (l : List (BitVec w)) : Buffer w := ⟨l, BitVec.ofNat 8 l.length⟩

/-- The valid contents of `HRP`. -/
def State.hrpBytes (s : State) : List Byte := s.hrp.valid Config.hrpCap

/-- The valid contents of `SYM`. -/
def State.symbols (s : State) : List Symbol := s.sym.valid Config.symCap

/-- The valid contents of `STR`. -/
def State.strBytes (s : State) : List Byte := s.str.valid Config.strCap

/-- The canonical form of the block's memory, the three buffers (log 7). -/
abbrev Memory.wf (s : State) : Prop :=
  s.hrp.wf Config.hrpCap ∧ s.sym.wf Config.symCap ∧ s.str.wf Config.strCap

/-! ### Registers and buffers of the state -/

/-- `CHK <- v`. -/
def State.setChk (s : State) (v : Word) : State := { s with chk := v }

/-- `CKS[i] <- k[i]` for all six. -/
def State.setCks (s : State) (k : Cks) : State := { s with cks := k }

/-- Replaces `HRP` and `HLEN`. -/
def State.setHrp (s : State) (b : Buffer 8) : State := { s with hrp := b }

/-- Replaces `SYM` and `SLEN`. -/
def State.setSym (s : State) (b : Buffer 5) : State := { s with sym := b }

/-- Replaces `STR` and `TLEN`. -/
def State.setStr (s : State) (b : Buffer 8) : State := { s with str := b }

/-- Reads `CKS[i]`; `none` for an index at or above 6 (R55, R169). -/
def Cks.read (k : Cks) (i : Nat) : Option Symbol := k.toList[i]?

/-! ### Responses and failures (30_encoding.md R78, 60_exceptions.md R185 to R187) -/

/-- Returns the response `(c, v)` to the host (R78), which takes it before it presents another word (R62; log 2,
log 13). -/
def State.respond (s : State) (c : Code) (v : Word) : State :=
  { s with responses := s.responses ++ [⟨c.bits, v⟩] }

/-- A transfer, system or PM step command that completes: `resp <- (0, val)`, `ERR` untouched (R28). -/
def State.answer (s : State) (v : Word) : Result := .next (s.respond .ok v)

/-- An operation command that completes: `ERR <- 0; resp <- (0, 0)` (R28). -/
def State.finish (s : State) : Result := .next ((s.setErr .ok).respond .ok 0#32)

/-- `raise <Code>` (R10): the block's one way of taking an exception. It records the code, in `PFLT` or in `ERR`
(R181, R182), and answers `(code, 0)` (R186). There is "no vector, no handler address, no saved program counter, no
mode change and no stack" (R186), and "There is no return instruction and nothing to restore" (R187), so no return
operation stands beside it. What a command writes before it raises is the command's own. -/
def State.raise (s : State) (c : Code) : Result := .next ((s.recordFailure c).respond c 0#32)

/-! ### Reset, idling and the host's events (70_reset_and_hazards.md R200, R201) -/

/-- Every piece of the block's state at its reset value (R38); the host's side is not the block's and stays. -/
def State.toReset (s : State) : State :=
  { State.reset with pending := s.pending, responses := s.responses }

/-- The integrating system's hardware reset between two commands: no response (R200, log 4). -/
def hardwareReset (s : State) : Result := .next s.toReset

/-- No event is pending: "Between commands the block is idle and holds its state" (R194, log 3). -/
def idle (s : State) : Result := .next s

/-- A word that selects no command (R75): `IllegalCommand`. -/
def illegalCommand (s : State) : Result := s.raise .illegalCommand

/-- The next host event, and the state once the block has taken it (R11, R62). -/
def State.takeEvent (s : State) : Option (HostEvent × State) :=
  match s.pending with
  | [] => none
  | e :: rest => some (e, { s with pending := rest })

/-- The state in which the host's very next event is `e`. -/
def State.present (s : State) (e : HostEvent) : State := { s with pending := e :: s.pending }

end Sys2Proof.Machine
end

