-- ==== Sys2Proof/Machine/Operands.lean ====
section
/-! DEFINITION. The operand forms of the command word (30_encoding.md R71, R72, R74). -/

namespace Sys2Proof.Machine

/-- Format V: the symbol `v = arg[4:0]`, or `none` when `arg[7:5] != 000` (R74 step 3). -/
def symbolOperand (arg : Byte) : Option Symbol :=
  if arg.extractLsb' 5 3 = 0#3 then some (arg.extractLsb' 0 5) else none

/-- Format X: the index `i` is the natural number `arg[7:0]` (R72). -/
def indexOperand (arg : Byte) : Nat := arg.toNat

/-- Format M: whether bit `k` of the mask is 1 (R73: bit 0 = HRP, bit 1 = SYM, bit 2 = STR). -/
def maskBit (m : BitVec 3) (k : Nat) : Bool := m.getLsbD k

/-- A read that may find no cell: its value zero-extended to 32 bits, or `IndexRange` (R54, R74 step 4, R78). -/
def answerRead {w : Nat} (s : State) : Option (BitVec w) → Result
  | some v => s.answer (v.setWidth 32)
  | none => s.raise .indexRange

end Sys2Proof.Machine
end

