-- ==== Sys2Proof/Machine/Decoder.lean ====
section
/-! DEFINITION. Unit DEC: the steps of decode (42_decoder.md R141 to R146) and the command DEC.RUN (R140, R147). -/

namespace Sys2Proof.Machine

/-! ### Step 2, scan (R142) -/

/-- Whether the code point is in [33,126]. -/
def inRange (c : Byte) : Bool := Config.charLo ≤ c.toNat && c.toNat ≤ Config.charHi

/-- `A` to `Z`, 0x41 to 0x5A (log 10). -/
def isUpper (c : Byte) : Bool := 0x41 ≤ c.toNat && c.toNat ≤ 0x5A

/-- `a` to `z`, 0x61 to 0x7A (log 10). -/
def isLower (c : Byte) : Bool := 0x61 ≤ c.toNat && c.toNat ≤ 0x7A

/-- Case folding: an upper-case letter plus 0x20, every other byte unchanged (log 10). -/
def foldCase (c : Byte) : Byte := if isUpper c then c + 0x20#8 else c

/-- The locals of the scan: `up`, `lo`, `sep`, and the folded working copy `F` (R32, R142). -/
structure Scan where
  up : Bool
  lo : Bool
  sep : Option Nat
  folded : List Byte
deriving DecidableEq, Repr

/-- The locals before the first character. -/
def scanStart : Scan := ⟨false, false, none, []⟩

/-- One turn of the loop of R142, for the character `c` at index `i`; `none` is `OutOfRangeCharacter`. -/
def scanChar (i : Nat) (c : Byte) (a : Scan) : Option Scan :=
  if inRange c then
    some { up := a.up || isUpper c
           lo := a.lo || isLower c
           sep := if foldCase c = Config.sepChar then some i else a.sep
           folded := a.folded ++ [foldCase c] }
  else none

/-- The loop of R142 from index `i` on. -/
def scanFrom : Nat → Scan → List Byte → Option Scan
  | _, a, [] => some a
  | i, a, c :: cs =>
    match scanChar i c a with
    | none => none
    | some a' => scanFrom (i + 1) a' cs

/-- The whole scan. -/
def scan (str : List Byte) : Option Scan := scanFrom 0 scanStart str

/-! ### Step 3, structure (R143) -/

/-- The separator's position, or the first structural check that fails. `n` is the string's length. -/
def checkStructure (n : Nat) (a : Scan) : Except Code Nat :=
  if a.up && a.lo then .error .mixedCase
  else
    match a.sep with
    | none => .error .missingSeparator
    | some sep =>
      if sep = 0 then .error .emptyHRP
      else if sep + 7 > n then .error .checksumTooShort
      else .ok sep

/-! ### Step 4, split and reverse mapping (R144) -/

/-- One character of the data part: `INVALID` (`none`) when bit 7 is set, else `REV`. -/
def reverseChar (x : Byte) : Option Symbol :=
  if x.getLsbD 7 then none else rev (x.extractLsb' 0 7)

/-- The prefix `h` and the mapped data part `R`, checksum included. -/
structure Split where
  hrp : List Byte
  data : List (Option Symbol)
deriving DecidableEq, Repr

/-- The working copy cut at the separator. -/
def splitAtSep (folded : List Byte) (sep : Nat) : Split :=
  ⟨folded.take sep, (folded.drop (sep + 1)).map reverseChar⟩

/-- Steps 3 and 4 (R143, R144) for a scanned string. -/
def structureAndSplit (n : Nat) (a : Scan) : Except Code Split :=
  match checkStructure n a with
  | .error c => .error c
  | .ok sep => .ok (splitAtSep a.folded sep)

/-- Steps 1 to 4 (R141 to R144) in the order of R148, the first failure winning; none of them writes `CHK`.
`n` is `TLEN`, `str` the string's cells. -/
def validate (n : Nat) (str : List Byte) : Except Code Split :=
  if n > Config.maxLen then .error .tooLong
  else if n < Config.minLen then .error .tooShort
  else
    match scan str with
    | none => .error .outOfRangeCharacter
    | some a => structureAndSplit n a

/-! ### Step 5, verification (R145), and success (R146) -/

/-- What the engine absorbs for one element of `R`: the symbol, or `SENTINEL` for `INVALID` (log 11). -/
def absorbedValue : Option Symbol → Word
  | none => Config.sentinel
  | some v => v.setWidth 32

/-- The accumulator of R145. -/
def Split.residue (sp : Split) : Word := polyMod (hrpExpand sp.hrp ++ sp.data.map absorbedValue)

/-- The flag `inv`: some character after the separator is not in the alphabet. -/
def Split.inv (sp : Split) : Bool := sp.data.any (·.isNone)

/-- `R` without its last six elements (R146): the payload. -/
def Split.payload (sp : Split) : List Symbol :=
  (sp.data.take (sp.data.length - Config.ckLen)).filterMap id

/-- Whether R145 raises `InvalidChecksum`. -/
def Split.rejected (sp : Split) : Bool := sp.residue != Config.ckConst || sp.inv

/-- `decode(s)` as a pure function (R149). -/
def decodeString (str : List Byte) : Except Code (List Byte × List Symbol) :=
  match validate str.length str with
  | .error c => .error c
  | .ok sp => if sp.rejected then .error .invalidChecksum else .ok (sp.hrp, sp.payload)

/-- The failure of R147: the result buffers are emptied, then the code is raised. -/
def decFail (c : Code) (s : State) : Result := ((s.setHrp .empty).setSym .empty).raise c

/-- `DEC.RUN` (R140): steps 1 to 4, then `CHK` gets the residue, then the test of R145, then R146 or R147. -/
def execDecRun (s : State) : Result :=
  match validate s.str.len.toNat s.strBytes with
  | .error c => decFail c s
  | .ok sp =>
    if sp.rejected then decFail .invalidChecksum (s.setChk sp.residue)
    else (((s.setChk sp.residue).setHrp (.ofList sp.hrp)).setSym (.ofList sp.payload)).finish

end Sys2Proof.Machine
end

