-- ==== Sys2Proof/Machine/Encoder.lean ====
section
/-! DEFINITION. Unit ENC: the function encode (41_encoder.md R130) and the command ENC.RUN (R131). -/

namespace Sys2Proof.Machine

/-- `encode(h, d)` (R130, R133): the HRP bytes unchanged, the separator, the mapped payload and checksum. -/
def encodeString (h : List Byte) (d : List Symbol) : List Byte :=
  h ++ [Config.sepChar] ++ (d ++ (createChecksum h d).toList).map charset

/-- `ENC.RUN` (R131): one natural-number test, then `CHK`, `CKS`, `STR`, `TLEN` and `ERR`; a failure empties `STR`. -/
def execEncRun (s : State) : Result :=
  if s.hrp.len.toNat + s.sym.len.toNat + 7 > Config.maxLen then (s.setStr .empty).raise .operandTooLong
  else
    (((s.setChk (createResidue s.hrpBytes s.symbols)).setCks (createChecksum s.hrpBytes s.symbols)).setStr
      (.ofList (encodeString s.hrpBytes s.symbols))).finish

end Sys2Proof.Machine
end

