-- ==== Sys2Proof/Machine/Engine.lean ====
section
/-! DEFINITION. The commands of unit PM (40_polymod_engine.md R110 to R114). -/

namespace Sys2Proof.Machine

/-- `PM.INIT` (R110). -/
def execPmInit (s : State) : Result := (s.setChk Config.pmInit).answer 0#32

/-- `PM.ABS v` (R111). -/
def execPmAbs (arg : Byte) (s : State) : Result :=
  match symbolOperand arg with
  | none => s.raise .symbolRange
  | some v => (s.setChk (absorb s.chk (v.setWidth 32))).answer 0#32

/-- `PM.HRPX` (R112): continues from the accumulator it finds. -/
def execPmHrpx (s : State) : Result :=
  if s.hrp.len.toNat > Config.hrpCap then s.raise .operandTooLong
  else (s.setChk (absorbAll s.chk (hrpExpand s.hrpBytes))).finish

/-- `CK.CREATE` (R113): `CHK` gets the value before the XOR with 1, `CKS` the six groups after it. -/
def execCkCreate (s : State) : Result :=
  if s.hrp.len.toNat > Config.hrpCap ∨ s.sym.len.toNat > Config.symCap then s.raise .operandTooLong
  else
    ((s.setChk (createResidue s.hrpBytes s.symbols)).setCks (createChecksum s.hrpBytes s.symbols)).finish

/-- `CK.VERIFY` (R114): `CHK` keeps the residue also when it is not 1. -/
def execCkVerify (s : State) : Result :=
  if s.hrp.len.toNat > Config.hrpCap ∨ s.sym.len.toNat > Config.symCap then s.raise .operandTooLong
  else
    let p := polyMod (verifyValues s.hrpBytes s.symbols)
    if p ≠ Config.ckConst then (s.setChk p).raise .invalidChecksum
    else (s.setChk p).finish

end Sys2Proof.Machine
end

