-- ==== Sys2Proof/Machine/System.lean ====
section
/-! DEFINITION. The buffer transfer and system commands (43_buffer_and_system.md R160 to R174). None writes `STATUS.ERR` but `RST`. -/

namespace Sys2Proof.Machine

/-- `NOP` (R160). -/
def execNop (s : State) : Result := s.answer 0#32

/-- `RST` (R161): all state to its reset value; the only command that clears `PFLT`. -/
def execRst (s : State) : Result := s.toReset.answer 0#32

/-- `CLR m` (R162): empties the buffers the mask names. -/
def execClr (m : BitVec 3) (s : State) : Result :=
  State.answer
    { s with
      hrp := if maskBit m 0 then .empty else s.hrp
      sym := if maskBit m 1 then .empty else s.sym
      str := if maskBit m 2 then .empty else s.str } 0#32

/-- `PUSH.H b` (R163). -/
def execPushH (b : Byte) (s : State) : Result := (s.setHrp (s.hrp.push Config.hrpCap b)).answer 0#32

/-- `PUSH.S v` (R164). -/
def execPushS (arg : Byte) (s : State) : Result :=
  match symbolOperand arg with
  | none => s.raise .symbolRange
  | some v => (s.setSym (s.sym.push Config.symCap v)).answer 0#32

/-- `PUSH.T b` (R165). -/
def execPushT (b : Byte) (s : State) : Result := (s.setStr (s.str.push Config.strCap b)).answer 0#32

/-- `RD.H i` (R166). -/
def execRdH (i : Byte) (s : State) : Result := answerRead s (s.hrp.read Config.hrpCap (indexOperand i))

/-- `RD.S i` (R167). -/
def execRdS (i : Byte) (s : State) : Result := answerRead s (s.sym.read Config.symCap (indexOperand i))

/-- `RD.T i` (R168). -/
def execRdT (i : Byte) (s : State) : Result := answerRead s (s.str.read Config.strCap (indexOperand i))

/-- `RD.K i` (R169). -/
def execRdK (i : Byte) (s : State) : Result := answerRead s (s.cks.read (indexOperand i))

/-- `RDREG STATUS` (R170). -/
def execRdregStatus (s : State) : Result := s.answer (statusWord s)

/-- `RDREG CHK` (R171). -/
def execRdregChk (s : State) : Result := s.answer s.chk

/-- `RDREG HLEN` (R172): the counter, not the valid count. -/
def execRdregHlen (s : State) : Result := s.answer (s.hrp.len.setWidth 32)

/-- `RDREG SLEN` (R173). -/
def execRdregSlen (s : State) : Result := s.answer (s.sym.len.setWidth 32)

/-- `RDREG TLEN` (R174). -/
def execRdregTlen (s : State) : Result := s.answer (s.str.len.setWidth 32)

end Sys2Proof.Machine
end

