-- ==== Sys2Proof/Machine/Dispatch.lean ====
section
/-! DEFINITION. One arm per command: the meaning of each is its own definition. -/

namespace Sys2Proof.Machine

def exec (i : Instr) (s : State) : Host.Outcome State Fault Refusal :=
  match i with
  | .nop => Sys2Proof.Machine.execNop s
  | .rst => Sys2Proof.Machine.execRst s
  | .pmInit => Sys2Proof.Machine.execPmInit s
  | .pmAbs arg => Sys2Proof.Machine.execPmAbs arg s
  | .pmHrpx => Sys2Proof.Machine.execPmHrpx s
  | .ckCreate => Sys2Proof.Machine.execCkCreate s
  | .ckVerify => Sys2Proof.Machine.execCkVerify s
  | .encRun => Sys2Proof.Machine.execEncRun s
  | .decRun => Sys2Proof.Machine.execDecRun s
  | .clr m => Sys2Proof.Machine.execClr m s
  | .pushH b => Sys2Proof.Machine.execPushH b s
  | .pushS arg => Sys2Proof.Machine.execPushS arg s
  | .pushT b => Sys2Proof.Machine.execPushT b s
  | .rdH idx => Sys2Proof.Machine.execRdH idx s
  | .rdS idx => Sys2Proof.Machine.execRdS idx s
  | .rdT idx => Sys2Proof.Machine.execRdT idx s
  | .rdK idx => Sys2Proof.Machine.execRdK idx s
  | .rdregStatus => Sys2Proof.Machine.execRdregStatus s
  | .rdregChk => Sys2Proof.Machine.execRdregChk s
  | .rdregHlen => Sys2Proof.Machine.execRdregHlen s
  | .rdregSlen => Sys2Proof.Machine.execRdregSlen s
  | .rdregTlen => Sys2Proof.Machine.execRdregTlen s

end Sys2Proof.Machine
end

