-- ==== Sys2Proof/Machine/Command.lean ====
section
/-! DEFINITION. The block's function from a state and a command word (00_scope.md R11, 30_encoding.md R74, R75). -/

namespace Sys2Proof.Machine

/-- `exec(state, w)` of R11: decode the word, then the command, or `IllegalCommand`. -/
def execWord (w : CmdWord) (s : State) : Result :=
  match decode w with
  | .ok i => exec i s
  | .error _ => illegalCommand s

/-- What one host event does. -/
def handleEvent (e : HostEvent) (s : State) : Result :=
  match e with
  | .command w => execWord w s
  | .hardwareReset => hardwareReset s

end Sys2Proof.Machine
end

