-- ==== Sys2Proof/Machine/Step.lean ====
section
/-! DEFINITION. One step: the block takes the host's next event and handles it to its end (00_scope.md R11, 20_memory.md R57), or idles. -/

namespace Sys2Proof.Machine

/-- One step of the machine. There is no program counter and no fetch (10_state.md R31): the next word is the one the
host presents next. -/
def step (s : State) : Host.Outcome State Fault Refusal :=
  match s.takeEvent with
  | none => idle s
  | some (e, s') => handleEvent e s'

/-- `s` with the command word `w` as the very next thing the host presents (log 5, log 14). -/
def State.withFetchWord (s : State) (nbits w : Nat) : State := s.present (.command (tableWord nbits w))

end Sys2Proof.Machine
end

