-- ==== Sys2Proof/Machine/Pseudo.lean ====
section
/-! DEFINITION. The pseudo-instructions of the assembler (30_encoding.md R80): "Each expands to the sequence shown and to nothing else." -/

namespace Sys2Proof.Machine

/-- A pseudo-instruction with its text, already taken byte by byte, or its list of symbols. -/
inductive Pseudo where
  | clrAll
  | loadH (text : List Byte)
  | loadS (symbols : List Symbol)
  | loadT (text : List Byte)
  | pmPad
deriving DecidableEq, Repr

/-- The `PUSH.S` or `PM.ABS` operand byte of a symbol: `arg[7:5] = 000`, `arg[4:0] = v` (R71). -/
def symbolArg (v : Symbol) : Byte := v.setWidth 8

/-- The expansion (R80). -/
def Pseudo.expand : Pseudo → List Instr
  | .clrAll => [.clr 7]
  | .loadH text => .clr 1 :: text.map .pushH
  | .loadS symbols => .clr 2 :: symbols.map (fun v => .pushS (symbolArg v))
  | .loadT text => .clr 4 :: text.map .pushT
  | .pmPad => List.replicate 6 (.pmAbs 0)

end Sys2Proof.Machine
end

