-- ==== Sys2Proof/Machine/Asm.lean ====
section
/-! DEFINITION. The assembler of 30_encoding.md R79 and R80: one line of text to command words. What R79 leaves open about the layout of a line is log 12. -/

namespace Sys2Proof.Machine

/-- The characters `"`, `'` and `\`, by code. -/
def dquoteChar : Char := Char.ofNat 34

def squoteChar : Char := Char.ofNat 39

def backslashChar : Char := Char.ofNat 92

/-- Operands are "separated by spaces" (R79). -/
def skipSpaces (l : List Char) : List Char := l.dropWhile (· == ' ')

/-- Nothing but a comment may follow the operand: "A `;` starts a comment" (R79). -/
def atEnd (l : List Char) : Bool :=
  match skipSpaces l with
  | [] => true
  | c :: _ => c == ';'

/-- A character that belongs to a mnemonic or to an unquoted operand. -/
def isTokenChar (c : Char) : Bool := c != ' ' && c != ';' && c != ',' && c != ']'

/-- The token at the start of `l` and what follows it. -/
def takeToken (l : List Char) : List Char × List Char := (l.takeWhile isTokenChar, l.dropWhile isTokenChar)

def decimalDigit? (c : Char) : Option Nat :=
  if 48 ≤ c.toNat ∧ c.toNat ≤ 57 then some (c.toNat - 48) else none

/-- Hexadecimal digits in either case (log 12). -/
def hexDigit? (c : Char) : Option Nat :=
  if 48 ≤ c.toNat ∧ c.toNat ≤ 57 then some (c.toNat - 48)
  else if 65 ≤ c.toNat ∧ c.toNat ≤ 70 then some (c.toNat - 55)
  else if 97 ≤ c.toNat ∧ c.toNat ≤ 102 then some (c.toNat - 87)
  else none

/-- Digits to a number, the most significant first. -/
def digits? (base : Nat) (digit? : Char → Option Nat) : Nat → List Char → Option Nat
  | acc, [] => some acc
  | acc, c :: cs =>
    match digit? c with
    | none => none
    | some d => digits? base digit? (acc * base + d) cs

/-- "A numeric operand is decimal, or hexadecimal with `0x`" (R79). -/
def number? : List Char → Option Nat
  | [] => none
  | '0' :: 'x' :: [] => none
  | '0' :: 'x' :: cs => digits? 16 hexDigit? 0 cs
  | cs => digits? 10 decimalDigit? 0 cs

/-- A number below `bound` at the start of `l`, and the rest. -/
def numberBelow? (bound : Nat) (l : List Char) : Option (Nat × List Char) :=
  match number? (takeToken l).1 with
  | none => none
  | some n => if n < bound then some (n, (takeToken l).2) else none

/-- "the operand may be a single-quoted ASCII character, meaning its code" (R79). -/
def quotedByte? (l : List Char) : Option (Nat × List Char) :=
  match l with
  | q :: c :: q' :: rest =>
    if q = squoteChar ∧ q' = squoteChar ∧ c.toNat < 128 then some (c.toNat, rest) else none
  | _ => none

/-- The text of `LOAD.H` and `LOAD.T` after its opening quote: byte by byte, `\xNN` giving the byte 0xNN (R80), up to
the closing quote. -/
def text? : List Char → Option (List Byte × List Char)
  | [] => none
  | c :: cs =>
    if c = dquoteChar then some ([], cs)
    else if c = backslashChar then
      match cs with
      | x :: a :: b :: rest =>
        match hexDigit? a, hexDigit? b, text? rest with
        | some h, some l, some (bytes, rest') =>
          if x = 'x' then some (BitVec.ofNat 8 (h * 16 + l) :: bytes, rest') else none
        | _, _, _ => none
      | _ => none
    else
      match text? cs with
      | some (bytes, rest) => if c.toNat < 128 then some (BitVec.ofNat 8 c.toNat :: bytes, rest) else none
      | none => none

/-- The rest of `LOAD.S`'s list after `[`: numbers separated by commas, closed by `]`. `fuel` bounds the number of
elements; the line's length is always enough. -/
def symbolList? : Nat → List Char → Option (List Symbol × List Char)
  | 0, _ => none
  | fuel + 1, l =>
    match numberBelow? 32 (skipSpaces l) with
    | none => none
    | some (n, rest) =>
      match skipSpaces rest with
      | ']' :: rest' => some ([BitVec.ofNat 5 n], rest')
      | ',' :: rest' =>
        match symbolList? fuel rest' with
        | none => none
        | some (vs, rest'') => some (BitVec.ofNat 5 n :: vs, rest'')
      | _ => none

/-- The mnemonics without an operand (R73). -/
def plainMnemonics : List (List Char × Instr) :=
  [(['N', 'O', 'P'], .nop), (['R', 'S', 'T'], .rst), (['P', 'M', '.', 'I', 'N', 'I', 'T'], .pmInit)]
    ++ [(['P', 'M', '.', 'H', 'R', 'P', 'X'], .pmHrpx), (['C', 'K', '.', 'C', 'R', 'E', 'A', 'T', 'E'], .ckCreate)]
    ++ [(['C', 'K', '.', 'V', 'E', 'R', 'I', 'F', 'Y'], .ckVerify), (['E', 'N', 'C', '.', 'R', 'U', 'N'], .encRun)]
    ++ [(['D', 'E', 'C', '.', 'R', 'U', 'N'], .decRun)]

/-- The mnemonics with a numeric byte operand (formats V and X; R73). -/
def numberMnemonics : List (List Char × (Byte → Instr)) :=
  [(['P', 'M', '.', 'A', 'B', 'S'], .pmAbs), (['P', 'U', 'S', 'H', '.', 'S'], .pushS)]
    ++ [(['R', 'D', '.', 'H'], .rdH), (['R', 'D', '.', 'S'], .rdS), (['R', 'D', '.', 'T'], .rdT)]
    ++ [(['R', 'D', '.', 'K'], .rdK)]

/-- The mnemonics whose byte operand may also be a quoted character (format B; R79). -/
def byteMnemonics : List (List Char × (Byte → Instr)) :=
  [(['P', 'U', 'S', 'H', '.', 'H'], .pushH), (['P', 'U', 'S', 'H', '.', 'T'], .pushT)]

/-- "The operand of `RDREG` is a register name ... or its number" (R79, R73). -/
def registerOperands : List (List Char × Instr) :=
  [(['S', 'T', 'A', 'T', 'U', 'S'], .rdregStatus), (['C', 'H', 'K'], .rdregChk), (['H', 'L', 'E', 'N'], .rdregHlen)]
    ++ [(['S', 'L', 'E', 'N'], .rdregSlen), (['T', 'L', 'E', 'N'], .rdregTlen)]

/-- The register instructions by number (R73). -/
def registerNumbers : List Instr := [.rdregStatus, .rdregChk, .rdregHlen, .rdregSlen, .rdregTlen]

/-- `RDREG`'s operand. -/
def register? (token : List Char) : Option Instr :=
  match registerOperands.lookup token with
  | some i => some i
  | none =>
    match number? token with
    | some n => registerNumbers[n]?
    | none => none

/-- What follows the operand must be the end of the line or a comment. -/
def finishLine (result : List Instr) (rest : List Char) : Option (List Instr) :=
  if atEnd rest then some result else none

/-- The pseudo-instructions of R80; `none` for any other mnemonic. `l` begins at the operand. -/
def pseudoLine? (mnemonic l : List Char) : Option (List Instr) :=
  if mnemonic = ['C', 'L', 'R', '.', 'A', 'L', 'L'] then finishLine Pseudo.clrAll.expand l
  else if mnemonic = ['P', 'M', '.', 'P', 'A', 'D'] then finishLine Pseudo.pmPad.expand l
  else if mnemonic = ['L', 'O', 'A', 'D', '.', 'S'] then
    match l with
    | '[' :: rest =>
      match skipSpaces rest with
      | ']' :: rest' => finishLine (Pseudo.loadS []).expand rest'
      | rest' =>
        match symbolList? rest'.length rest' with
        | some (vs, rest'') => finishLine (Pseudo.loadS vs).expand rest''
        | none => none
    | _ => none
  else
    match l with
    | [] => none
    | q :: rest =>
      if q ≠ dquoteChar then none
      else
        match text? rest with
        | none => none
        | some (bytes, rest') =>
          if mnemonic = ['L', 'O', 'A', 'D', '.', 'H'] then finishLine (Pseudo.loadH bytes).expand rest'
          else if mnemonic = ['L', 'O', 'A', 'D', '.', 'T'] then finishLine (Pseudo.loadT bytes).expand rest'
          else none

/-- A line whose mnemonic and operand text are `mnemonic` and `l` (R79, R80). -/
def operandLine? (mnemonic l : List Char) : Option (List Instr) :=
  match plainMnemonics.lookup mnemonic with
  | some i => finishLine [i] l
  | none =>
    match numberMnemonics.lookup mnemonic with
    | some f =>
      match numberBelow? 256 l with
      | some (n, rest) => finishLine [f (BitVec.ofNat 8 n)] rest
      | none => none
    | none =>
      match byteMnemonics.lookup mnemonic with
      | some f =>
        match quotedByte? l with
        | some (n, rest) => finishLine [f (BitVec.ofNat 8 n)] rest
        | none =>
          match numberBelow? 256 l with
          | some (n, rest) => finishLine [f (BitVec.ofNat 8 n)] rest
          | none => none
      | none =>
        if mnemonic = ['C', 'L', 'R'] then
          match numberBelow? 8 l with
          | some (m, rest) => finishLine [.clr (BitVec.ofNat 3 m)] rest
          | none => none
        else if mnemonic = ['R', 'D', 'R', 'E', 'G'] then
          match register? (takeToken l).1 with
          | some i => finishLine [i] (takeToken l).2
          | none => none
        else pseudoLine? mnemonic l

/-- One line of assembler text to the instructions it stands for; `none` where it is not a line of the syntax. A line
that is empty or only a comment stands for no instruction (log 12). -/
def assembleLine (line : List Char) : Option (List Instr) :=
  if atEnd line then some []
  else operandLine? (takeToken (skipSpaces line)).1 (skipSpaces (takeToken (skipSpaces line)).2)

/-- "The assembler emits one 16-bit word per command" (R79). -/
def assembleWords (line : List Char) : Option (List CmdWord) := (assembleLine line).map (·.map encode)

/-- A byte as `0x` and two hexadecimal digits. -/
def hexByte (b : Byte) : List Char :=
  let digit := fun n => Char.ofNat (if n < 10 then 48 + n else 55 + n)
  ['0', 'x', digit (b.toNat / 16), digit (b.toNat % 16)]

/-- A line of the syntax that stands for a command (R73's mnemonics, R79's operands). -/
def render : Instr → List Char
  | .nop => ['N', 'O', 'P']
  | .rst => ['R', 'S', 'T']
  | .pmInit => ['P', 'M', '.', 'I', 'N', 'I', 'T']
  | .pmAbs arg => ['P', 'M', '.', 'A', 'B', 'S', ' '] ++ hexByte arg
  | .pmHrpx => ['P', 'M', '.', 'H', 'R', 'P', 'X']
  | .ckCreate => ['C', 'K', '.', 'C', 'R', 'E', 'A', 'T', 'E']
  | .ckVerify => ['C', 'K', '.', 'V', 'E', 'R', 'I', 'F', 'Y']
  | .encRun => ['E', 'N', 'C', '.', 'R', 'U', 'N']
  | .decRun => ['D', 'E', 'C', '.', 'R', 'U', 'N']
  | .clr m => ['C', 'L', 'R', ' '] ++ hexByte (m.setWidth 8)
  | .pushH b => ['P', 'U', 'S', 'H', '.', 'H', ' '] ++ hexByte b
  | .pushS arg => ['P', 'U', 'S', 'H', '.', 'S', ' '] ++ hexByte arg
  | .pushT b => ['P', 'U', 'S', 'H', '.', 'T', ' '] ++ hexByte b
  | .rdH i => ['R', 'D', '.', 'H', ' '] ++ hexByte i
  | .rdS i => ['R', 'D', '.', 'S', ' '] ++ hexByte i
  | .rdT i => ['R', 'D', '.', 'T', ' '] ++ hexByte i
  | .rdK i => ['R', 'D', '.', 'K', ' '] ++ hexByte i
  | .rdregStatus => ['R', 'D', 'R', 'E', 'G', ' ', 'S', 'T', 'A', 'T', 'U', 'S']
  | .rdregChk => ['R', 'D', 'R', 'E', 'G', ' ', 'C', 'H', 'K']
  | .rdregHlen => ['R', 'D', 'R', 'E', 'G', ' ', 'H', 'L', 'E', 'N']
  | .rdregSlen => ['R', 'D', 'R', 'E', 'G', ' ', 'S', 'L', 'E', 'N']
  | .rdregTlen => ['R', 'D', 'R', 'E', 'G', ' ', 'T', 'L', 'E', 'N']

end Sys2Proof.Machine
end

