-- ==== Sys2Proof/Safety.lean ====
section
/-! DEFINITION. What claims speak of: legal states, runs of commands, and runs without a protocol fault (60_exceptions.md R181, 70_reset_and_hazards.md R213). -/

namespace Sys2Proof.Machine

/-- A response the block can give (R78, R180): a code 0 to 12, and the value 0 when the code is not 0. -/
abbrev Response.legal (r : Response) : Prop := r.err.toNat ≤ 12 ∧ (r.err ≠ 0#4 → r.val = 0#32)

/-- The states the block can be in between commands: the buffers in canonical form (R26, R39); `ERR` an operation
result, 0 to 9 (R28); bits 31 and 30 of `CHK` both 0, or both 1 after a `SENTINEL`, and then `CHK` is not 1 (R21,
R108); every recorded response legal. -/
structure State.Legal (s : State) : Prop where
  memory : Memory.wf s
  err : s.err.toNat ≤ 9
  chkTop : s.chk.extractLsb' 30 2 = 0#2 ∨ s.chk.extractLsb' 30 2 = 3#2
  responses : ∀ r ∈ s.responses, r.legal

/-- The state an outcome leads to, if it is a next state. -/
def nextState? : Result → Option State
  | .next s => some s
  | .fault _ => none
  | .refused _ => none

/-- A run of commands (R213): each to completion before the next, straight from `exec`. -/
def runInstrs : List Instr → State → Result
  | [], s => .next s
  | i :: is, s =>
    match exec i s with
    | .next s' => runInstrs is s'
    | .fault r => .fault r
    | .refused r => .refused r

/-- The response of the last command. -/
def State.lastResponse (s : State) : Option Response := s.responses.getLast?

/-- A protocol fault's response: code 10, 11 or 12 (R181). -/
def Response.isProtocolFault (r : Response) : Bool := 10 ≤ r.err.toNat && r.err.toNat ≤ 12

/-- A safe run: no command of it ended in a protocol fault (R181). -/
def State.noProtocolFault (s : State) : Prop := ∀ r ∈ s.responses, r.isProtocolFault = false

/-- The state after a DEC.RUN that failed with code `k` and left `chk` in `CHK` (R147, R186). -/
def decFailed (s : State) (chk : Word) (k : BitVec 4) : State :=
  { s with chk := chk, hrp := ⟨[], 0#8⟩, sym := ⟨[], 0#8⟩, err := k, responses := s.responses ++ [⟨k, 0#32⟩] }

/-- The state after a DEC.RUN that returned the prefix `h` and the payload `d` (R146); the residue was 1. -/
def decAccepted (s : State) (h : List Byte) (d : List Symbol) : State :=
  { s with
    chk := 1#32
    hrp := ⟨h, BitVec.ofNat 8 h.length⟩
    sym := ⟨d, BitVec.ofNat 8 d.length⟩
    err := 0#4
    responses := s.responses ++ [⟨0#4, 0#32⟩] }

/-- The characters of a string are all in [33,126] (R142). -/
abbrev AllInRange (str : List Byte) : Prop := ∀ x ∈ str, 33 ≤ x.toNat ∧ x.toNat ≤ 126

/-- Some character is an upper-case letter (R142, log 10). -/
abbrev HasUpper (str : List Byte) : Prop := ∃ x ∈ str, 0x41 ≤ x.toNat ∧ x.toNat ≤ 0x5A

/-- Some character is a lower-case letter (R142, log 10). -/
abbrev HasLower (str : List Byte) : Prop := ∃ x ∈ str, 0x61 ≤ x.toNat ∧ x.toNat ≤ 0x7A

/-- `h` and `d` are what stands before and after the last separator of `str` (R143). -/
abbrev SplitsAs (str h d : List Byte) : Prop := str = h ++ 0x31#8 :: d ∧ 0x31#8 ∉ d

/-- The alphabet index of a folded character as the engine absorbs it, or `SENTINEL` (R35, R145): the specification's
own words, "`REV[c] = s` when `CHARSET[s] = c`", without the table `REV`. -/
def specAbsorbed (x : Byte) : Word :=
  if foldCase x ∈ charsetTable then BitVec.ofNat 32 (charsetTable.idxOf (foldCase x)) else 0xFFFFFFFF#32

/-- The residue R145 computes for the prefix `h` and the data part `d` of a string, both as they stand in `STR`. -/
def specResidue (h d : List Byte) : Word :=
  (hrpExpand (h.map foldCase) ++ d.map specAbsorbed).foldl absorb 1#32

/-- The upper-case copy of a character: R150 (a)'s "all-uppercase copy". -/
def toUpperCase (c : Byte) : Byte := if isLower c then c - 0x20#8 else c

/-- The five operation commands (R28). -/
def isOperation : Instr → Bool
  | .pmHrpx | .ckCreate | .ckVerify | .encRun | .decRun => true
  | .nop | .rst | .pmInit | .pmAbs _ | .clr _ | .pushH _ | .pushS _ | .pushT _ => false
  | .rdH _ | .rdS _ | .rdT _ | .rdK _ => false
  | .rdregStatus | .rdregChk | .rdregHlen | .rdregSlen | .rdregTlen => false

/-- The commands that only read (R54): `RD.*` and `RDREG`. -/
def isRead : Instr → Bool
  | .rdH _ | .rdS _ | .rdT _ | .rdK _ => true
  | .rdregStatus | .rdregChk | .rdregHlen | .rdregSlen | .rdregTlen => true
  | .nop | .rst | .pmInit | .pmAbs _ | .pmHrpx | .ckCreate | .ckVerify | .encRun | .decRun => false
  | .clr _ | .pushH _ | .pushS _ | .pushT _ => false

/-- The commands that store to no buffer cell and no length counter (R40): everything but RST, CLR, the pushes and
the two RUN commands. -/
def storesNothing : Instr → Bool
  | .rst | .clr _ | .pushH _ | .pushS _ | .pushT _ | .encRun | .decRun => false
  | .nop | .pmInit | .pmAbs _ | .pmHrpx | .ckCreate | .ckVerify => true
  | .rdH _ | .rdS _ | .rdT _ | .rdK _ => true
  | .rdregStatus | .rdregChk | .rdregHlen | .rdregSlen | .rdregTlen => true

end Sys2Proof.Machine
end

