-- ==== Sys2Proof/Certificates/Slice0/Obligations.lean ====
section
/-! DEFINITION. The statements for the provers. "Answers (err, val)" means: the response is appended to the model's record `responses` (log 2); `pending` is the host's list of coming events (log 1). `Memory.wf` says that each buffer's list has one entry per cell below the valid count (log 6, log 7); StepKeepsLegal states that every step keeps it. -/

open Sys2Proof Sys2Proof.Machine

/-! ### The command word (30_encoding.md) -/

/-- R70 to R73: every command, with every value of its operand, is what its word decodes to. -/
def Obligations.DecodeOfEncodeIsTheCommand : Prop :=
  ∀ i : Instr, decode (encode i) = .ok i

/-- R70 to R73: no two words stand for one command. -/
def Obligations.DecodedWordIsItsEncoding : Prop :=
  ∀ (w : CmdWord) (i : Instr), decode w = .ok i → encode i = w

/-- R73: a word that selects a command lies in that command's row of the opcode map, and in no other row. -/
def Obligations.SelectedRowIsTheOnlyRow : Prop :=
  ∀ (w : CmdWord) (i : Instr), decode w = .ok i →
    (opcodeRow i).holds w = true ∧ ∀ j : Instr, (opcodeRow j).holds w = true → opcodeRow j = opcodeRow i

/-- R75: what an illegal word does, and which words are illegal. -/
def Obligations.IllegalWordsAreTheListedOnes : Prop :=
  (∀ (w : CmdWord) (s : State), (∃ e, decode w = .error e) →
    execWord w s = .next { s with pflt := true, responses := s.responses ++ [⟨12#4, 0#32⟩] }) ∧
  (∀ w : CmdWord, (∃ e, decode w = .error e) ↔
    let op := w.toNat / 4096
    let sub := w.toNat / 256 % 16
    let arg := w.toNat % 256
    8 ≤ op ∨ (op = 0 ∧ 2 ≤ sub) ∨ (op = 1 ∧ 3 ≤ sub) ∨ (op = 2 ∧ 2 ≤ sub) ∨ (op = 3 ∧ 2 ≤ sub) ∨
      (op = 4 ∧ 8 ≤ sub) ∨ (op = 5 ∧ 3 ≤ sub) ∨ (op = 6 ∧ 4 ≤ sub) ∨ (op = 7 ∧ 5 ≤ sub) ∨
      ((op = 0 ∨ (op = 1 ∧ sub ≠ 1) ∨ op = 2 ∨ op = 3 ∨ op = 4 ∨ op = 7) ∧ arg ≠ 0))

/-- R75's census: 2,069 words select a command and 63,467 are illegal. -/
def Obligations.CensusOfTheWords : Prop :=
  Nat.card { w : CmdWord // ∃ i, decode w = .ok i } = 2069 ∧
  Nat.card { w : CmdWord // ∃ e, decode w = .error e } = 63467

/-- Words written out bit by bit from the opcode map (R73), one or two of each family, decode to their commands. -/
def Obligations.WrittenOutWordsDecode : Prop :=
  decode 0b0000000100000000#16 = .ok .rst ∧ decode 0b0001000100011111#16 = .ok (.pmAbs 0x1F) ∧
  decode 0b0010000100000000#16 = .ok .ckVerify ∧ decode 0b0011000000000000#16 = .ok .encRun ∧
  decode 0b0011000100000000#16 = .ok .decRun ∧ decode 0b0100010100000000#16 = .ok (.clr 5) ∧
  decode 0b0101001000110001#16 = .ok (.pushT 0x31) ∧ decode 0b0110001100000101#16 = .ok (.rdK 5) ∧
  decode 0b0111010000000000#16 = .ok .rdregTlen ∧ decode 0b0000000000000001#16 = .error .argNotZero ∧
  decode 0b1000000000000000#16 = .error .noRow

/-! ### The step (00_scope.md R11, 70_reset_and_hazards.md) -/

/-- R11, R75: a step takes the host's next event. A word that decodes to `i` runs `exec i` with the event taken; an
illegal word answers (12, 0). A hardware reset gives the reset state (R200); that it is an event between commands, gives
no response and keeps the host's side is the model's own (log 4, DEDUCED). Without an event nothing changes, the model's
idling (log 3). -/
def Obligations.StepRunsTheDecodedCommand : Prop :=
  (∀ (s : State) (w : CmdWord) (rest : List HostEvent) (i : Instr),
    s.pending = .command w :: rest → decode w = .ok i → step s = exec i { s with pending := rest }) ∧
  (∀ (s : State) (w : CmdWord) (rest : List HostEvent) (e : DecodeError),
    s.pending = .command w :: rest → decode w = .error e →
      step s = .next { s with pending := rest, pflt := true, responses := s.responses ++ [⟨12#4, 0#32⟩] }) ∧
  (∀ (s : State) (rest : List HostEvent), s.pending = .hardwareReset :: rest →
    step s = .next { State.reset with pending := rest, responses := s.responses }) ∧
  (∀ s : State, s.pending = [] → step s = .next s)

/-- R11, R187: "exec is total"; the block never stops, whatever the state and the host do. -/
def Obligations.EveryStepAnswersANextState : Prop :=
  ∀ s : State, ∃ t, step s = .next t

/-- The invariant of the states between commands: canonical buffers (R26, R39), `ERR` at most 9 (R28), bits 31:30 of
`CHK` alike (R108), legal responses (R78, R180). Every step keeps it, from every state that has it, a
step that takes a hardware reset between commands (log 4) included. -/
def Obligations.StepKeepsLegal : Prop :=
  ∀ s t : State, s.Legal → step s = .next t → t.Legal

/-- The reset state has the invariant. -/
def Obligations.ResetIsLegal : Prop := State.reset.Legal

/-- R38: the state after hardware reset and after RST. The host's side is no state of the block (log 1, log 2). That a
hardware reset is an event between commands, gives no response and keeps the host's side is the model's own (log 4,
DEDUCED). -/
def Obligations.ResetAndRstLeaveTheResetState : Prop :=
  (∀ (s : State) (rest : List HostEvent), s.pending = .hardwareReset :: rest →
    step s = .next
      { chk := 0x00000001#32, cks := ⟨0#5, 0#5, 0#5, 0#5, 0#5, 0#5⟩, hrp := ⟨[], 0#8⟩, sym := ⟨[], 0#8⟩,
        str := ⟨[], 0#8⟩, err := 0#4, pflt := false, pending := rest, responses := s.responses }) ∧
  (∀ s : State, exec .rst s = .next
      { chk := 0x00000001#32, cks := ⟨0#5, 0#5, 0#5, 0#5, 0#5, 0#5⟩, hrp := ⟨[], 0#8⟩, sym := ⟨[], 0#8⟩,
        str := ⟨[], 0#8⟩, err := 0#4, pflt := false, pending := s.pending,
        responses := s.responses ++ [⟨0#4, 0#32⟩] })

/-! ### System and transfer commands (43_buffer_and_system.md) -/

/-- R160, R171 to R174: NOP and the register reads but STATUS: the word, the response, and that nothing else changes. -/
def Obligations.NopAndRegisterReads : Prop :=
  decode 0x0000#16 = .ok .nop ∧ decode 0x7100#16 = .ok .rdregChk ∧ decode 0x7200#16 = .ok .rdregHlen ∧
  decode 0x7300#16 = .ok .rdregSlen ∧ decode 0x7400#16 = .ok .rdregTlen ∧
  ∀ s : State,
    exec .nop s = .next { s with responses := s.responses ++ [⟨0#4, 0#32⟩] } ∧
    exec .rdregChk s = .next { s with responses := s.responses ++ [⟨0#4, s.chk⟩] } ∧
    exec .rdregHlen s = .next { s with responses := s.responses ++ [⟨0#4, s.hrp.len.setWidth 32⟩] } ∧
    exec .rdregSlen s = .next { s with responses := s.responses ++ [⟨0#4, s.sym.len.setWidth 32⟩] } ∧
    exec .rdregTlen s = .next { s with responses := s.responses ++ [⟨0#4, s.str.len.setWidth 32⟩] }

/-- R27, R170: RDREG STATUS answers the word whose bits 3:0 are `ERR`, bit 4 `PFLT`, bits 31:5 zero, and changes
nothing. -/
def Obligations.StatusReadsErrAndPflt : Prop :=
  decode 0x7000#16 = .ok .rdregStatus ∧
  ∀ s : State, ∃ v : Word,
    exec .rdregStatus s = .next { s with responses := s.responses ++ [⟨0#4, v⟩] } ∧
    v.extractLsb' 0 4 = s.err ∧ v.getLsbD 4 = s.pflt ∧ v.extractLsb' 5 27 = 0#27

/-- R166 to R169: a read below the valid count (below 6 for RD.K) answers the cell, zero-extended, and changes
nothing; any other read is the protocol fault IndexRange. -/
def Obligations.ReadsAnswerTheCellOrIndexRange : Prop :=
  (∀ i : Byte, decode (0x6000#16 ||| i.setWidth 16) = .ok (.rdH i) ∧
    decode (0x6100#16 ||| i.setWidth 16) = .ok (.rdS i) ∧
    decode (0x6200#16 ||| i.setWidth 16) = .ok (.rdT i) ∧
    decode (0x6300#16 ||| i.setWidth 16) = .ok (.rdK i)) ∧
  ∀ (s : State) (i : Byte), Memory.wf s →
    let indexRange : State := { s with pflt := true, responses := s.responses ++ [⟨11#4, 0#32⟩] }
    (∀ h : i.toNat < s.hrp.cells.length, exec (.rdH i) s =
      .next { s with responses := s.responses ++ [⟨0#4, (s.hrp.cells[i.toNat]).setWidth 32⟩] }) ∧
    (i.toNat < min s.hrp.len.toNat 83 ↔ i.toNat < s.hrp.cells.length) ∧
    (min s.hrp.len.toNat 83 ≤ i.toNat → exec (.rdH i) s = .next indexRange) ∧
    (∀ h : i.toNat < s.sym.cells.length, exec (.rdS i) s =
      .next { s with responses := s.responses ++ [⟨0#4, (s.sym.cells[i.toNat]).setWidth 32⟩] }) ∧
    (i.toNat < min s.sym.len.toNat 88 ↔ i.toNat < s.sym.cells.length) ∧
    (min s.sym.len.toNat 88 ≤ i.toNat → exec (.rdS i) s = .next indexRange) ∧
    (∀ h : i.toNat < s.str.cells.length, exec (.rdT i) s =
      .next { s with responses := s.responses ++ [⟨0#4, (s.str.cells[i.toNat]).setWidth 32⟩] }) ∧
    (i.toNat < min s.str.len.toNat 90 ↔ i.toNat < s.str.cells.length) ∧
    (min s.str.len.toNat 90 ≤ i.toNat → exec (.rdT i) s = .next indexRange) ∧
    (∀ h : i.toNat < 6, exec (.rdK i) s =
      .next { s with responses := s.responses ++ [⟨0#4,
        ([s.cks.k0, s.cks.k1, s.cks.k2, s.cks.k3, s.cks.k4, s.cks.k5][i.toNat]).setWidth 32⟩] }) ∧
    (6 ≤ i.toNat → exec (.rdK i) s = .next indexRange)

/-- R162: CLR sets the counter of each buffer its mask names to 0 (an empty buffer holds no value, R39) and changes
nothing else. -/
def Obligations.ClrEmptiesTheNamedBuffers : Prop :=
  (∀ m : BitVec 3, decode (0x4000#16 ||| (m.setWidth 16 <<< 8)) = .ok (.clr m)) ∧
  ∀ (m : BitVec 3) (s : State), exec (.clr m) s = .next
    { s with
      hrp := if m.getLsbD 0 = true then ⟨[], 0#8⟩ else s.hrp
      sym := if m.getLsbD 1 = true then ⟨[], 0#8⟩ else s.sym
      str := if m.getLsbD 2 = true then ⟨[], 0#8⟩ else s.str
      responses := s.responses ++ [⟨0#4, 0#32⟩] }

/-- R163 to R165: a push stores its value if the counter is below the capacity, and counts up to 255; PUSH.S of 32 or
more is SymbolRange and pushes nothing. -/
def Obligations.PushesAppendAndCount : Prop :=
  (∀ b : Byte, decode (0x5000#16 ||| b.setWidth 16) = .ok (.pushH b) ∧
    decode (0x5100#16 ||| b.setWidth 16) = .ok (.pushS b) ∧
    decode (0x5200#16 ||| b.setWidth 16) = .ok (.pushT b)) ∧
  ∀ s : State,
    (∀ b : Byte, exec (.pushH b) s = .next
      { s with
        hrp := ⟨if s.hrp.len.toNat < 83 then s.hrp.cells ++ [b] else s.hrp.cells,
          if s.hrp.len.toNat < 255 then s.hrp.len + 1#8 else 255#8⟩
        responses := s.responses ++ [⟨0#4, 0#32⟩] }) ∧
    (∀ v : Symbol, exec (.pushS (v.setWidth 8)) s = .next
      { s with
        sym := ⟨if s.sym.len.toNat < 88 then s.sym.cells ++ [v] else s.sym.cells,
          if s.sym.len.toNat < 255 then s.sym.len + 1#8 else 255#8⟩
        responses := s.responses ++ [⟨0#4, 0#32⟩] }) ∧
    (∀ arg : Byte, 32 ≤ arg.toNat → exec (.pushS arg) s = .next
      { s with pflt := true, responses := s.responses ++ [⟨10#4, 0#32⟩] }) ∧
    (∀ b : Byte, exec (.pushT b) s = .next
      { s with
        str := ⟨if s.str.len.toNat < 90 then s.str.cells ++ [b] else s.str.cells,
          if s.str.len.toNat < 255 then s.str.len + 1#8 else 255#8⟩
        responses := s.responses ++ [⟨0#4, 0#32⟩] })

/-- The frame of the three pushes (R26, R40, R50): the only cell that can change is the one at the index the counter
named before the push, and it gets the value if it exists; every other cell of every buffer, the other counters and
every register read as before. -/
def Obligations.PushFrame : Prop :=
  ∀ s t : State, Memory.wf s →
    (∀ b : Byte, exec (.pushH b) s = .next t →
      (∀ k, k ≠ s.hrp.len.toNat → t.hrp.read 83 k = s.hrp.read 83 k) ∧
      t.hrp.read 83 s.hrp.len.toNat = (if s.hrp.len.toNat < 83 then some b else none) ∧
      (∀ k, t.sym.read 88 k = s.sym.read 88 k) ∧ (∀ k, t.str.read 90 k = s.str.read 90 k) ∧
      t.sym.len = s.sym.len ∧ t.str.len = s.str.len ∧
      t.chk = s.chk ∧ t.cks = s.cks ∧ t.err = s.err ∧ t.pflt = s.pflt) ∧
    (∀ v : Symbol, exec (.pushS (v.setWidth 8)) s = .next t →
      (∀ k, k ≠ s.sym.len.toNat → t.sym.read 88 k = s.sym.read 88 k) ∧
      t.sym.read 88 s.sym.len.toNat = (if s.sym.len.toNat < 88 then some v else none) ∧
      (∀ k, t.hrp.read 83 k = s.hrp.read 83 k) ∧ (∀ k, t.str.read 90 k = s.str.read 90 k) ∧
      t.hrp.len = s.hrp.len ∧ t.str.len = s.str.len ∧
      t.chk = s.chk ∧ t.cks = s.cks ∧ t.err = s.err ∧ t.pflt = s.pflt) ∧
    (∀ b : Byte, exec (.pushT b) s = .next t →
      (∀ k, k ≠ s.str.len.toNat → t.str.read 90 k = s.str.read 90 k) ∧
      t.str.read 90 s.str.len.toNat = (if s.str.len.toNat < 90 then some b else none) ∧
      (∀ k, t.hrp.read 83 k = s.hrp.read 83 k) ∧ (∀ k, t.sym.read 88 k = s.sym.read 88 k) ∧
      t.hrp.len = s.hrp.len ∧ t.sym.len = s.sym.len ∧
      t.chk = s.chk ∧ t.cks = s.cks ∧ t.err = s.err ∧ t.pflt = s.pflt)

/-- R26 with R80: loading any text or list of symbols, of any length, from any state: the buffer holds the first
elements up to its capacity, its counter counts them all up to 255, every response is (0, 0), nothing else changes. -/
def Obligations.LoadsFillTheBuffer : Prop :=
  ∀ s : State,
    (∀ text : List Byte, runInstrs (Pseudo.loadH text).expand s = .next
      { s with hrp := ⟨text.take 83, BitVec.ofNat 8 (min text.length 255)⟩
               responses := s.responses ++ List.replicate (text.length + 1) ⟨0#4, 0#32⟩ }) ∧
    (∀ d : List Symbol, runInstrs (Pseudo.loadS d).expand s = .next
      { s with sym := ⟨d.take 88, BitVec.ofNat 8 (min d.length 255)⟩
               responses := s.responses ++ List.replicate (d.length + 1) ⟨0#4, 0#32⟩ }) ∧
    (∀ text : List Byte, runInstrs (Pseudo.loadT text).expand s = .next
      { s with str := ⟨text.take 90, BitVec.ofNat 8 (min text.length 255)⟩
               responses := s.responses ++ List.replicate (text.length + 1) ⟨0#4, 0#32⟩ })

/-- R80: what each pseudo-instruction expands to, as words. -/
def Obligations.PseudoInstructionsExpand : Prop :=
  Pseudo.clrAll.expand.map encode = [0x4700#16] ∧
  (∀ text, (Pseudo.loadH text).expand.map encode = 0x4100#16 :: text.map fun b => 0x5000#16 ||| b.setWidth 16) ∧
  (∀ d, (Pseudo.loadS d).expand.map encode = 0x4200#16 :: d.map fun v => 0x5100#16 ||| v.setWidth 16) ∧
  (∀ text, (Pseudo.loadT text).expand.map encode = 0x4400#16 :: text.map fun b => 0x5200#16 ||| b.setWidth 16) ∧
  Pseudo.pmPad.expand.map encode = [0x1100#16, 0x1100#16, 0x1100#16, 0x1100#16, 0x1100#16, 0x1100#16]

/-- R79: the assembler turns the written form of every command, whatever its operand, into that command's one word. -/
def Obligations.AssemblerReadsEveryCommand : Prop :=
  ∀ i : Instr, assembleWords (render i) = some [encode i]

/-! ### The engine (40_polymod_engine.md) -/

/-- R100, R101: one absorb step as a formula over the five literal constants of R33. -/
def Obligations.AbsorbIsTheStatedStep : Prop :=
  ∀ chk v : Word, absorb chk v =
    (((chk &&& 0x01FFFFFF#32) <<< 5) ^^^ v)
      ^^^ (if chk.getLsbD 25 = true then 0x3B6A57B2#32 else 0#32)
      ^^^ (if chk.getLsbD 26 = true then 0x26508E6D#32 else 0#32)
      ^^^ (if chk.getLsbD 27 = true then 0x1EA119FA#32 else 0#32)
      ^^^ (if chk.getLsbD 28 = true then 0x3D4233DD#32 else 0#32)
      ^^^ (if chk.getLsbD 29 = true then 0x2A1462B3#32 else 0#32)

/-- R101, R102 (marked [derived] by the spec): bits 31:30 of the accumulator have no effect, and shifting before
masking gives the same step. -/
def Obligations.AbsorbDropsTheTopBits : Prop :=
  (∀ chk v : Word, absorb chk v = absorb (chk &&& 0x3FFFFFFF#32) v) ∧
  (∀ chk v : Word, absorb chk v = absorb (chk &&& 0x3E000000#32) (((chk <<< 5) &&& 0x3FFFFFE0#32) ^^^ v))

/-- R104: hrpExpand has 2n+1 elements: the high parts, a 0, the low parts, each below 32. -/
def Obligations.HrpExpandElements : Prop :=
  ∀ h : List Byte,
    (hrpExpand h).length = 2 * h.length + 1 ∧
    (∀ k (hk : k < h.length), ((hrpExpand h)[k]?).map BitVec.toNat = some ((h[k]).toNat / 32)) ∧
    (hrpExpand h)[h.length]? = some 0#32 ∧
    (∀ k (hk : k < h.length), ((hrpExpand h)[h.length + 1 + k]?).map BitVec.toNat = some ((h[k]).toNat % 32)) ∧
    (∀ v ∈ hrpExpand h, v.toNat < 32)

/-- R110, R111: PM.INIT, and PM.ABS with each of its 256 operand bytes. -/
def Obligations.PmInitAndPmAbs : Prop :=
  decode 0x1000#16 = .ok .pmInit ∧
  (∀ v : Symbol, decode (0x1100#16 ||| v.setWidth 16) = .ok (.pmAbs (v.setWidth 8))) ∧
  ∀ s : State,
    exec .pmInit s = .next { s with chk := 0x00000001#32, responses := s.responses ++ [⟨0#4, 0#32⟩] } ∧
    (∀ v : Symbol, exec (.pmAbs (v.setWidth 8)) s = .next
      { s with chk := absorb s.chk (v.setWidth 32), responses := s.responses ++ [⟨0#4, 0#32⟩] }) ∧
    (∀ arg : Byte, 32 ≤ arg.toNat → exec (.pmAbs arg) s = .next
      { s with pflt := true, responses := s.responses ++ [⟨10#4, 0#32⟩] })

/-- R112: PM.HRPX continues from the accumulator it finds, absorbing 2*HLEN+1 values, or fails with code 9. -/
def Obligations.PmHrpxAbsorbsTheExpandedHrp : Prop :=
  decode 0x1200#16 = .ok .pmHrpx ∧
  ∀ s : State,
    (Memory.wf s → s.hrp.len.toNat ≤ 83 →
      (hrpExpand s.hrp.cells).length = 2 * s.hrp.len.toNat + 1 ∧
      exec .pmHrpx s = .next
        { s with chk := (hrpExpand s.hrp.cells).foldl absorb s.chk, err := 0#4,
                 responses := s.responses ++ [⟨0#4, 0#32⟩] }) ∧
    (83 < s.hrp.len.toNat → exec .pmHrpx s = .next
      { s with err := 9#4, responses := s.responses ++ [⟨9#4, 0#32⟩] })

/-- R113: CK.CREATE, success and failure; the six groups are stated as numbers, most significant first. -/
def Obligations.CkCreateWritesTheChecksum : Prop :=
  decode 0x2000#16 = .ok .ckCreate ∧
  ∀ s : State,
    (Memory.wf s → s.hrp.len.toNat ≤ 83 → s.sym.len.toNat ≤ 88 →
      let p := (hrpExpand s.hrp.cells ++ s.sym.cells.map (·.setWidth 32)
        ++ [0#32, 0#32, 0#32, 0#32, 0#32, 0#32]).foldl absorb 1#32
      ∃ k : Cks,
        [k.k0, k.k1, k.k2, k.k3, k.k4, k.k5].map BitVec.toNat =
          [25, 20, 15, 10, 5, 0].map (fun sh => (p ^^^ 1#32).toNat / 2 ^ sh % 32) ∧
        exec .ckCreate s = .next
          { s with chk := p, cks := k, err := 0#4, responses := s.responses ++ [⟨0#4, 0#32⟩] }) ∧
    (83 < s.hrp.len.toNat ∨ 88 < s.sym.len.toNat → exec .ckCreate s = .next
      { s with err := 9#4, responses := s.responses ++ [⟨9#4, 0#32⟩] })

/-- R114: CK.VERIFY: success exactly on residue 1, `CHK` keeping the residue either way, or code 9. -/
def Obligations.CkVerifyTestsTheResidue : Prop :=
  decode 0x2100#16 = .ok .ckVerify ∧
  ∀ s : State,
    (Memory.wf s → s.hrp.len.toNat ≤ 83 → s.sym.len.toNat ≤ 88 →
      let p := (hrpExpand s.hrp.cells ++ s.sym.cells.map (·.setWidth 32)).foldl absorb 1#32
      (p = 1#32 → exec .ckVerify s = .next
        { s with chk := p, err := 0#4, responses := s.responses ++ [⟨0#4, 0#32⟩] }) ∧
      (p ≠ 1#32 → exec .ckVerify s = .next
        { s with chk := p, err := 8#4, responses := s.responses ++ [⟨8#4, 0#32⟩] })) ∧
    (83 < s.hrp.len.toNat ∨ 88 < s.sym.len.toNat → exec .ckVerify s = .next
      { s with err := 9#4, responses := s.responses ++ [⟨9#4, 0#32⟩] })

/-- R108 (marked [derived] by the spec): the range of the accumulator, of the engine's functions and of `CHK`. -/
def Obligations.AccumulatorStaysBelowTwoToThirty : Prop :=
  (∀ chk v : Word, (absorb chk v).extractLsb' 30 2 = v.extractLsb' 30 2) ∧
  (∀ vs : List Word, (∀ v ∈ vs, v.toNat < 2 ^ 30) → (polyMod vs).toNat < 2 ^ 30) ∧
  (∀ (i : Instr) (s t : State), exec i s = .next t → s.chk.toNat < 2 ^ 30 → 2 ^ 30 ≤ t.chk.toNat →
    i = .decRun ∧ t.err = 8#4)

/-- R109 (a) (marked [derived] by the spec): absorb is linear over GF(2) in its two arguments together. -/
def Obligations.AbsorbIsLinear : Prop :=
  (∀ a b u w : Word, absorb (a ^^^ b) (u ^^^ w) = absorb a u ^^^ absorb b w) ∧ absorb 0#32 0#32 = 0#32

/-- R109 (c) (marked [derived] by the spec): two sequences of equal length that differ in exactly one position, by a
difference below 2^30, have different polyMod results. -/
def Obligations.OneChangedValueChangesPolyMod : Prop :=
  ∀ (before after : List Word) (u w : Word), u ≠ w → (u ^^^ w).toNat < 2 ^ 30 →
    polyMod (before ++ u :: after) ≠ polyMod (before ++ w :: after)

/-- R106 with R105 (the spec marks the "if" [derived]): of all six-symbol endings, exactly the created checksum
verifies, for every prefix and payload. -/
def Obligations.OnlyTheCreatedChecksumVerifies : Prop :=
  ∀ (h : List Byte) (d : List Symbol) (k : Cks),
    verifyChecksum h (zextSymbols (d ++ k.toList)) = true ↔ k = createChecksum h d

/-- R115 (marked [derived] by the spec): driving polyMod step by step gives what the single commands give. -/
def Obligations.StepwisePolyModEqualsTheCommands : Prop :=
  ∀ s : State, Memory.wf s → s.hrp.len.toNat ≤ 83 → s.sym.len.toNat ≤ 88 →
    (∃ t u, runInstrs ([.pmInit, .pmHrpx] ++ s.sym.cells.map (fun v => .pmAbs (symbolArg v))
          ++ Pseudo.pmPad.expand) s = .next t ∧
      exec .ckCreate s = .next u ∧ t.chk = u.chk ∧ u.cks = Cks.ofWord (t.chk ^^^ 1#32) ∧ t.cks = s.cks) ∧
    (∃ t u, runInstrs ([.pmInit, .pmHrpx] ++ s.sym.cells.map (fun v => .pmAbs (symbolArg v))) s = .next t ∧
      exec .ckVerify s = .next u ∧ t.chk = u.chk ∧ (u.err = 0#4 ↔ t.chk = 1#32))

/-- R212 (informative, marked [derived] by the spec) and the bound of R211: how many values each command absorbs. -/
def Obligations.AbsorbCounts : Prop :=
  (∀ (h : List Byte) (d : List Symbol),
    (createValues h d).length = 2 * h.length + 1 + d.length + 6 ∧
    (verifyValues h d).length = 2 * h.length + 1 + d.length) ∧
  (∀ s : State, (createValues s.hrpBytes s.symbols).length ≤ 261) ∧
  (∀ (n : Nat) (str : List Byte) (sp : Split), str.length = n → validate n str = .ok sp →
    (hrpExpand sp.hrp ++ sp.data.map absorbedValue).length = n + sp.hrp.length)

/-! ### The encoder (41_encoder.md) and the tables -/

/-- R34 to R36: CHARSET is the stated string, and REV its inverse with every other code INVALID. The byte values are
ASCII, supplied from general knowledge by the spec (93_implementation_defined.md G1, log 10); R36 is
marked [derived] by the spec. -/
def Obligations.CharsetAndRevAreInverse : Prop :=
  charsetTable.map (fun b => Char.ofNat b.toNat) = "qpzry9x8gf2tvdw0s3jn54khce6mua7l".toList ∧
  (∀ s : Symbol, rev ((charset s).setWidth 7) = some s) ∧
  (∀ (c : BitVec 7) (s : Symbol), rev c = some s → (charset s) = c.setWidth 8)

/-- R131: ENC.RUN, success and failure, with the stored string computed from the operands. -/
def Obligations.EncRunWritesTheEncodedString : Prop :=
  decode 0x3000#16 = .ok .encRun ∧
  ∀ s : State,
    (Memory.wf s → s.hrp.len.toNat + s.sym.len.toNat + 7 ≤ 90 →
      let p := (hrpExpand s.hrp.cells ++ s.sym.cells.map (·.setWidth 32)
        ++ [0#32, 0#32, 0#32, 0#32, 0#32, 0#32]).foldl absorb 1#32
      ∃ k : Cks,
        [k.k0, k.k1, k.k2, k.k3, k.k4, k.k5].map BitVec.toNat =
          [25, 20, 15, 10, 5, 0].map (fun sh => (p ^^^ 1#32).toNat / 2 ^ sh % 32) ∧
        exec .encRun s = .next
          { s with
            chk := p
            cks := k
            str := ⟨s.hrp.cells ++ [0x31#8] ++ s.sym.cells.map charset
                ++ [charset k.k0, charset k.k1, charset k.k2, charset k.k3, charset k.k4, charset k.k5],
              BitVec.ofNat 8 (s.hrp.len.toNat + s.sym.len.toNat + 7)⟩
            err := 0#4
            responses := s.responses ++ [⟨0#4, 0#32⟩] }) ∧
    (90 < s.hrp.len.toNat + s.sym.len.toNat + 7 → exec .encRun s = .next
      { s with str := ⟨[], 0#8⟩, err := 9#4, responses := s.responses ++ [⟨9#4, 0#32⟩] })

/-- R133: where each part of the output stands in STR, read cell by cell; no cell beyond it holds a value. -/
def Obligations.EncodedFrameLayout : Prop :=
  ∀ s : State, Memory.wf s → s.hrp.len.toNat + s.sym.len.toNat + 7 ≤ 90 →
    let n := s.hrp.len.toNat
    let k := s.sym.len.toNat
    ∃ t, exec .encRun s = .next t ∧
      (∀ i, i < n → t.str.read 90 i = s.hrp.read 83 i) ∧
      t.str.read 90 n = some 0x31#8 ∧
      (∀ j, j < k → t.str.read 90 (n + 1 + j) = (s.sym.read 88 j).map charset) ∧
      (∀ i, i < 6 → t.str.read 90 (n + k + 1 + i) = (t.cks.read i).map charset) ∧
      (∀ i, i < n + k + 7 → (t.str.read 90 i).isSome) ∧
      (∀ i, n + k + 7 ≤ i → t.str.read 90 i = none)

/-- R136 (marked [derived] by the spec): what the encoder writes after the HRP has no upper-case letter (0x41 to 0x5A,
log 10), so the output has one exactly when the HRP has. -/
def Obligations.EncodingIsLowerCaseByConstruction : Prop :=
  ∀ (h : List Byte) (d : List Symbol),
    (∃ tail, encodeString h d = h ++ tail ∧ ¬ HasUpper tail) ∧ (HasUpper (encodeString h d) ↔ HasUpper h)

/-! ### The decoder (42_decoder.md) -/

/-- R141 to R143, R147, R148: DEC.RUN reports the first defect in the stated order, with the state of R147. The letter
ranges of the MixedCase test are the spec's general knowledge (G2, log 10). -/
def Obligations.DecRunReportsTheFirstDefect : Prop :=
  ∀ s : State, Memory.wf s →
    let n := s.str.len.toNat
    let str := s.str.cells
    (90 < n → exec .decRun s = .next (decFailed s s.chk 2#4)) ∧
    (n < 8 → exec .decRun s = .next (decFailed s s.chk 1#4)) ∧
    (8 ≤ n → n ≤ 90 →
      (¬ AllInRange str → exec .decRun s = .next (decFailed s s.chk 3#4)) ∧
      (AllInRange str →
        (HasUpper str ∧ HasLower str → exec .decRun s = .next (decFailed s s.chk 4#4)) ∧
        (¬ (HasUpper str ∧ HasLower str) →
          (0x31#8 ∉ str → exec .decRun s = .next (decFailed s s.chk 5#4)) ∧
          (∀ h d : List Byte, SplitsAs str h d →
            (h = [] → exec .decRun s = .next (decFailed s s.chk 6#4)) ∧
            (h ≠ [] → d.length < 6 → exec .decRun s = .next (decFailed s s.chk 7#4))))))

/-- R144 to R147: a string that passes the structural checks: `CHK` gets the residue; the decode succeeds exactly when
it is 1 and every data character is in the alphabet, and then returns the folded prefix and the payload, the symbols
whose characters stand before the last six. Alphabet codes and fold are the spec's general knowledge (G1, G2, log 10),
the pattern of INVALID is decision D11 (log 11). -/
def Obligations.DecRunVerifiesAndReturns : Prop :=
  decode 0x3100#16 = .ok .decRun ∧
  ∀ (s : State) (h d : List Byte), Memory.wf s →
    8 ≤ s.str.len.toNat → s.str.len.toNat ≤ 90 → AllInRange s.str.cells →
    ¬ (HasUpper s.str.cells ∧ HasLower s.str.cells) → SplitsAs s.str.cells h d → h ≠ [] → 6 ≤ d.length →
    ((specResidue h d ≠ 1#32 ∨ ∃ x ∈ d, foldCase x ∉ charsetTable) →
      exec .decRun s = .next (decFailed s (specResidue h d) 8#4)) ∧
    (specResidue h d = 1#32 → (∀ x ∈ d, foldCase x ∈ charsetTable) →
      ∃ payload : List Symbol,
        payload.map charset = (d.map foldCase).take (d.length - 6) ∧
        exec .decRun s = .next (decAccepted s (h.map foldCase) payload))

/-- R149: DEC.RUN computes the function decode of the pushed bytes; past 90 it is TooLong. -/
def Obligations.DecRunIsTheFunctionDecode : Prop :=
  ∀ s : State, Memory.wf s →
    (s.str.len.toNat ≤ 90 →
      match decodeString s.str.cells with
      | .ok (h, d) => exec .decRun s = .next (decAccepted s h d)
      | .error c => ∃ chk, exec .decRun s = .next (decFailed s chk c.bits)) ∧
    (90 < s.str.len.toNat → exec .decRun s = .next (decFailed s s.chk Code.tooLong.bits))

/-- The decoder is sound and complete for the encoder (R130, R141 to R146): DEC.RUN returns (h, d) exactly when the
string is at most 90 characters in [33,126], not of mixed case (log 10), and its case-folded form is encode(h, d) for a
non-empty h. -/
def Obligations.DecRunAcceptsExactlyTheEncodings : Prop :=
  ∀ (s : State) (h : List Byte) (d : List Symbol), Memory.wf s →
    (exec .decRun s = .next (decAccepted s h d) ↔
      s.str.len.toNat ≤ 90 ∧ AllInRange s.str.cells ∧ ¬ (HasUpper s.str.cells ∧ HasLower s.str.cells) ∧
      h ≠ [] ∧ s.str.cells.map foldCase = encodeString h d)

/-- R137: the round trip through the machine: ENC.RUN followed by DEC.RUN ends with both results 0 and with the
operands as they were before. -/
def Obligations.EncodeThenDecodeReturnsTheOperands : Prop :=
  ∀ s : State, Memory.wf s → 1 ≤ s.hrp.len.toNat → s.hrp.len.toNat + s.sym.len.toNat + 7 ≤ 90 →
    (∀ x ∈ s.hrp.cells, 33 ≤ x.toNat ∧ x.toNat ≤ 126 ∧ ¬ (0x41 ≤ x.toNat ∧ x.toNat ≤ 0x5A)) →
    ∃ t, runInstrs [.encRun, .decRun] s = .next t ∧
      t.responses = s.responses ++ [⟨0#4, 0#32⟩, ⟨0#4, 0#32⟩] ∧ t.hrp = s.hrp ∧ t.sym = s.sym

/-- R150 (a): an all-upper-case copy of a string that decodes, decodes to the same prefix and payload (letter ranges:
G2, log 10). -/
def Obligations.UpperCaseCopyDecodesAlike : Prop :=
  ∀ (str : List Byte) (h : List Byte) (d : List Symbol),
    decodeString str = .ok (h, d) → decodeString (str.map toUpperCase) = .ok (h, d)

/-- R150 (c), first two cases, for a valid string without upper-case letters: one character after the separator
replaced by any other character in [33,126] that is no upper-case letter and no `1`, in the alphabet or not, makes the
decode fail with InvalidChecksum. The spec marks R109 (c), which it rests on, [derived]. -/
def Obligations.OneChangedDataCharacterIsDetected : Prop :=
  ∀ (before after h : List Byte) (x y : Byte) (d : List Symbol),
    decodeString (before ++ x :: after) = .ok (h, d) → ¬ HasUpper (before ++ x :: after) →
    0x31#8 ∈ before → x ≠ 0x31#8 → 0x31#8 ∉ after →
    y ≠ x → 33 ≤ y.toNat → y.toNat ≤ 126 → ¬ (0x41 ≤ y.toNat ∧ y.toNat ≤ 0x5A) → y ≠ 0x31#8 →
    decodeString (before ++ y :: after) = .error .invalidChecksum

/-- R150 (c), third case: one character of the prefix replaced by another in [33,126], not an upper-case letter, with
the same high three bits or the same low five bits, makes the decode fail with InvalidChecksum. The spec marks
R109 (c), which it rests on, [derived]. -/
def Obligations.OneChangedHrpCharacterIsDetected : Prop :=
  ∀ (before after h : List Byte) (x y : Byte) (d : List Symbol),
    decodeString (before ++ x :: after) = .ok (h, d) → ¬ HasUpper (before ++ x :: after) →
    0x31#8 ∈ after →
    y ≠ x → 33 ≤ y.toNat → y.toNat ≤ 126 → ¬ (0x41 ≤ y.toNat ∧ y.toNat ≤ 0x5A) →
    (x.toNat / 32 = y.toNat / 32 ∨ x.toNat % 32 = y.toNat % 32) →
    decodeString (before ++ y :: after) = .error .invalidChecksum

/-! ### The whole machine (10_state.md, 60_exceptions.md) -/

/-- R28: only the five operation commands write `ERR`, each its own result code, the `err` of its response; RST writes
0; every other command, and an illegal word, leaves it. -/
def Obligations.ErrHoldsTheLastOperationsCode : Prop :=
  ∀ (w : CmdWord) (s t : State), execWord w s = .next t →
    ∃ r, t.responses = s.responses ++ [r] ∧
      (∀ i, decode w = .ok i → isOperation i = true → t.err = r.err ∧ t.err.toNat ≤ 9) ∧
      (decode w = .ok .rst → t.err = 0#4) ∧
      ((∀ i, decode w = .ok i → isOperation i = false ∧ i ≠ .rst) → t.err = s.err)

/-- R29: `PFLT` becomes 1 on codes 10, 11 and 12, is cleared by RST and by hardware reset, and by nothing else. That a
hardware reset is an event between commands is the model's own (log 4, DEDUCED). -/
def Obligations.PfltIsStickyUntilReset : Prop :=
  (∀ (w : CmdWord) (s t : State), execWord w s = .next t →
    ∃ r, t.responses = s.responses ++ [r] ∧
      ((r.err = 10#4 ∨ r.err = 11#4 ∨ r.err = 12#4) → t.pflt = true) ∧
      (decode w = .ok .rst → t.pflt = false) ∧
      (decode w ≠ .ok .rst → ¬ (r.err = 10#4 ∨ r.err = 11#4 ∨ r.err = 12#4) → t.pflt = s.pflt)) ∧
  (∀ (s t : State) (rest : List HostEvent), s.pending = .hardwareReset :: rest → step s = .next t →
    t.pflt = false)

/-- R186: the whole table of what a failing command has written: for a response with a non-zero code, the next state is
the state before but for the fields of the command's row. The residue of the DEC.RUN row rests on the letter ranges and
codes of the spec's general knowledge (G1, G2, log 10) and on decision D11 (log 11). -/
def Obligations.FailureWritesOnlyItsRow : Prop :=
  (∀ (i : Instr) (s t : State) (r : Response), Memory.wf s → exec i s = .next t →
    t.responses = s.responses ++ [r] → r.err ≠ 0#4 →
    r.val = 0#32 ∧
    match i with
    | .decRun =>
      (1 ≤ r.err.toNat ∧ r.err.toNat ≤ 7 ∧ t = decFailed s s.chk r.err) ∨
      (r.err = 8#4 ∧ ∃ h d, SplitsAs s.str.cells h d ∧ t = decFailed s (specResidue h d) 8#4)
    | .ckVerify =>
      (r.err = 8#4 ∧ t = { s with
        chk := polyMod (verifyValues s.hrp.cells s.sym.cells), err := 8#4,
        responses := s.responses ++ [⟨8#4, 0#32⟩] }) ∨
      (r.err = 9#4 ∧ t = { s with err := 9#4, responses := s.responses ++ [⟨9#4, 0#32⟩] })
    | .ckCreate | .pmHrpx =>
      r.err = 9#4 ∧ t = { s with err := 9#4, responses := s.responses ++ [⟨9#4, 0#32⟩] }
    | .encRun =>
      r.err = 9#4 ∧ t = { s with str := ⟨[], 0#8⟩, err := 9#4, responses := s.responses ++ [⟨9#4, 0#32⟩] }
    | .pmAbs _ | .pushS _ =>
      r.err = 10#4 ∧ t = { s with pflt := true, responses := s.responses ++ [⟨10#4, 0#32⟩] }
    | .rdH _ | .rdS _ | .rdT _ | .rdK _ =>
      r.err = 11#4 ∧ t = { s with pflt := true, responses := s.responses ++ [⟨11#4, 0#32⟩] }
    | _ => False) ∧
  (∀ (w : CmdWord) (s : State) (e : DecodeError), decode w = .error e →
    execWord w s = .next { s with pflt := true, responses := s.responses ++ [⟨12#4, 0#32⟩] })

/-- R78, R180: every word gets exactly one response, with a code 0 to 12; its value is 0 when the code is not 0 and
when the command is no read. -/
def Obligations.EveryWordGetsOneResponse : Prop :=
  ∀ (w : CmdWord) (s : State), ∃ t r, execWord w s = .next t ∧ t.responses = s.responses ++ [r] ∧
    r.err.toNat ≤ 12 ∧ (r.err ≠ 0#4 → r.val = 0#32) ∧
    (r.val ≠ 0#32 → ∃ i, decode w = .ok i ∧ isRead i = true)

/-- R40 (marked [derived] by the spec): the access matrix as frames: which commands can change each piece of state. -/
def Obligations.OnlyTheseCommandsWrite : Prop :=
  ∀ (i : Instr) (s t : State), exec i s = .next t →
    (t.chk = s.chk ∨ i = .rst ∨ i = .pmInit ∨ (∃ a, i = .pmAbs a) ∨ i = .pmHrpx ∨ i = .ckCreate ∨ i = .ckVerify ∨
      i = .encRun ∨ i = .decRun) ∧
    (t.cks = s.cks ∨ i = .rst ∨ i = .ckCreate ∨ i = .encRun) ∧
    (t.hrp = s.hrp ∨ i = .rst ∨ i = .decRun ∨ (∃ m : BitVec 3, m.getLsbD 0 = true ∧ i = .clr m) ∨
      ∃ b, i = .pushH b) ∧
    (t.sym = s.sym ∨ i = .rst ∨ i = .decRun ∨ (∃ m : BitVec 3, m.getLsbD 1 = true ∧ i = .clr m) ∨
      ∃ a, i = .pushS a) ∧
    (t.str = s.str ∨ i = .rst ∨ i = .encRun ∨ (∃ m : BitVec 3, m.getLsbD 2 = true ∧ i = .clr m) ∨
      ∃ b, i = .pushT b) ∧
    (t.err = s.err ∨ i = .rst ∨ isOperation i = true) ∧
    (t.pflt = s.pflt ∨ i = .rst ∨ ∃ a, i = .pmAbs a ∨ i = .pushS a ∨ i = .rdH a ∨ i = .rdS a ∨ i = .rdT a ∨
      i = .rdK a) ∧
    t.pending = s.pending

/-- The frame of the commands that store to no buffer (R40, R54): every cell and every counter reads as before; a read
changes no register but the sticky bit on IndexRange; only CK.CREATE writes `CKS`. -/
def Obligations.StoringNothingFrame : Prop :=
  ∀ (i : Instr) (s t : State), storesNothing i = true → exec i s = .next t →
    (∀ k, t.hrp.read 83 k = s.hrp.read 83 k) ∧ (∀ k, t.sym.read 88 k = s.sym.read 88 k) ∧
    (∀ k, t.str.read 90 k = s.str.read 90 k) ∧
    t.hrp.len = s.hrp.len ∧ t.sym.len = s.sym.len ∧ t.str.len = s.str.len ∧
    (i ≠ .ckCreate → t.cks = s.cks) ∧ (isOperation i = false → t.err = s.err) ∧
    (isRead i = true ∨ i = .nop → t.chk = s.chk)

/-- The frame of the two RUN commands (R131, R140): ENC.RUN leaves every cell and counter of its operands HRP and SYM,
and `PFLT`; DEC.RUN leaves every cell of STR, `TLEN`, `CKS` and `PFLT`. -/
def Obligations.RunCommandsKeepTheirOperands : Prop :=
  (∀ s t : State, exec .encRun s = .next t →
    (∀ k, t.hrp.read 83 k = s.hrp.read 83 k) ∧ (∀ k, t.sym.read 88 k = s.sym.read 88 k) ∧
    t.hrp.len = s.hrp.len ∧ t.sym.len = s.sym.len ∧ t.pflt = s.pflt) ∧
  (∀ s t : State, exec .decRun s = .next t →
    (∀ k, t.str.read 90 k = s.str.read 90 k) ∧ t.str.len = s.str.len ∧ t.cks = s.cks ∧ t.pflt = s.pflt)

/-- R41 (marked [derived] by the spec): history independence. Two states whose operand buffers have the same counters
and the same valid contents get the same response and the same buffer results, whatever else they hold. -/
def Obligations.OperationsDependOnTheirOperandsOnly : Prop :=
  (∀ s₁ s₂ : State, s₁.hrp.len = s₂.hrp.len → s₁.sym.len = s₂.sym.len → s₁.hrpBytes = s₂.hrpBytes →
    s₁.symbols = s₂.symbols → ∀ i ∈ [Instr.ckCreate, .ckVerify, .encRun],
    ∃ t₁ t₂ r, exec i s₁ = .next t₁ ∧ exec i s₂ = .next t₂ ∧
      t₁.responses = s₁.responses ++ [r] ∧ t₂.responses = s₂.responses ++ [r] ∧
      (i = .encRun → t₁.str = t₂.str)) ∧
  (∀ s₁ s₂ : State, s₁.str.len = s₂.str.len → s₁.strBytes = s₂.strBytes →
    ∃ t₁ t₂ r, exec .decRun s₁ = .next t₁ ∧ exec .decRun s₂ = .next t₂ ∧
      t₁.responses = s₁.responses ++ [r] ∧ t₂.responses = s₂.responses ++ [r] ∧
      t₁.hrp = t₂.hrp ∧ t₁.sym = t₂.sym)

/-- R187: "retrying is meaningless": one of the four operation commands repeated at once gives the same response and
changes nothing more. -/
def Obligations.RepeatedOperationRepeats : Prop :=
  ∀ i ∈ [Instr.ckCreate, .ckVerify, .encRun, .decRun], ∀ (s t : State) (r : Response),
    exec i s = .next t → t.responses = s.responses ++ [r] →
    exec i t = .next { t with responses := t.responses ++ [r] }
end

