-- ==== Sys2Proof/Laws/Decode.lean ====
section
/-! SUPPORT. The three fields of a command word: a word is its fields, and its fields are what it was put together from. -/

namespace Sys2Proof

theorem opField_fields (op sub : BitVec 4) (arg : Byte) : opField (assembleFields op sub arg) = op := by
  unfold opField assembleFields
  ext k hk
  simp
  grind

theorem subField_fields (op sub : BitVec 4) (arg : Byte) : subField (assembleFields op sub arg) = sub := by
  unfold subField assembleFields
  ext k hk
  simp
  grind

theorem argField_fields (op sub : BitVec 4) (arg : Byte) : argField (assembleFields op sub arg) = arg := by
  unfold argField assembleFields
  ext k hk
  simp
  grind

theorem fields_of_word (w : CmdWord) : assembleFields (opField w) (subField w) (argField w) = w := by
  unfold assembleFields opField subField argField
  ext k hk
  simp
  grind

/-- Every word is put together from three fields. -/
theorem exists_fields (w : CmdWord) : ∃ op sub arg, w = assembleFields op sub arg :=
  ⟨_, _, _, (fields_of_word w).symm⟩

theorem toNat_fields (op sub : BitVec 4) (arg : Byte) :
    (assembleFields op sub arg).toNat = op.toNat * 4096 + sub.toNat * 256 + arg.toNat := by
  unfold assembleFields
  rw [BitVec.toNat_append, ← Nat.shiftLeft_add_eq_or_of_lt arg.isLt, BitVec.toNat_append,
    ← Nat.shiftLeft_add_eq_or_of_lt sub.isLt]
  simp [Nat.shiftLeft_eq]
  omega

end Sys2Proof
end

