-- ==== Sys2Proof/Laws/State.lean ====
section
/-! SUPPORT. One lemma per field per update of State, so that no proof unfolds a record update. -/

namespace Sys2Proof.Config

/-! The parameters as numerals, for arithmetic. -/

@[simp] theorem hrpCap_eq : hrpCap = 83 := rfl
@[simp] theorem symCap_eq : symCap = 88 := rfl
@[simp] theorem strCap_eq : strCap = 90 := rfl
@[simp] theorem maxLen_eq : maxLen = 90 := rfl
@[simp] theorem minLen_eq : minLen = 8 := rfl
@[simp] theorem lenMax_eq : lenMax = 255 := rfl
@[simp] theorem ckLen_eq : ckLen = 6 := rfl
@[simp] theorem charLo_eq : charLo = 33 := rfl
@[simp] theorem charHi_eq : charHi = 126 := rfl
@[simp] theorem pmInit_eq : pmInit = 1#32 := rfl
@[simp] theorem ckConst_eq : ckConst = 1#32 := rfl
@[simp] theorem sepChar_eq : sepChar = 0x31#8 := rfl
@[simp] theorem sentinel_eq : sentinel = 0xFFFFFFFF#32 := rfl

end Sys2Proof.Config

namespace Sys2Proof.Machine.State

@[simp] theorem setChk_chk (s : State) (v : Word) : (s.setChk v).chk = v := rfl
@[simp] theorem setChk_cks (s : State) (v : Word) : (s.setChk v).cks = s.cks := rfl
@[simp] theorem setChk_hrp (s : State) (v : Word) : (s.setChk v).hrp = s.hrp := rfl
@[simp] theorem setChk_sym (s : State) (v : Word) : (s.setChk v).sym = s.sym := rfl
@[simp] theorem setChk_str (s : State) (v : Word) : (s.setChk v).str = s.str := rfl
@[simp] theorem setChk_err (s : State) (v : Word) : (s.setChk v).err = s.err := rfl
@[simp] theorem setChk_pflt (s : State) (v : Word) : (s.setChk v).pflt = s.pflt := rfl
@[simp] theorem setChk_pending (s : State) (v : Word) : (s.setChk v).pending = s.pending := rfl
@[simp] theorem setChk_responses (s : State) (v : Word) : (s.setChk v).responses = s.responses := rfl

@[simp] theorem setCks_chk (s : State) (k : Cks) : (s.setCks k).chk = s.chk := rfl
@[simp] theorem setCks_cks (s : State) (k : Cks) : (s.setCks k).cks = k := rfl
@[simp] theorem setCks_hrp (s : State) (k : Cks) : (s.setCks k).hrp = s.hrp := rfl
@[simp] theorem setCks_sym (s : State) (k : Cks) : (s.setCks k).sym = s.sym := rfl
@[simp] theorem setCks_str (s : State) (k : Cks) : (s.setCks k).str = s.str := rfl
@[simp] theorem setCks_err (s : State) (k : Cks) : (s.setCks k).err = s.err := rfl
@[simp] theorem setCks_pflt (s : State) (k : Cks) : (s.setCks k).pflt = s.pflt := rfl
@[simp] theorem setCks_pending (s : State) (k : Cks) : (s.setCks k).pending = s.pending := rfl
@[simp] theorem setCks_responses (s : State) (k : Cks) : (s.setCks k).responses = s.responses := rfl

@[simp] theorem setHrp_chk (s : State) (b : Buffer 8) : (s.setHrp b).chk = s.chk := rfl
@[simp] theorem setHrp_cks (s : State) (b : Buffer 8) : (s.setHrp b).cks = s.cks := rfl
@[simp] theorem setHrp_hrp (s : State) (b : Buffer 8) : (s.setHrp b).hrp = b := rfl
@[simp] theorem setHrp_sym (s : State) (b : Buffer 8) : (s.setHrp b).sym = s.sym := rfl
@[simp] theorem setHrp_str (s : State) (b : Buffer 8) : (s.setHrp b).str = s.str := rfl
@[simp] theorem setHrp_err (s : State) (b : Buffer 8) : (s.setHrp b).err = s.err := rfl
@[simp] theorem setHrp_pflt (s : State) (b : Buffer 8) : (s.setHrp b).pflt = s.pflt := rfl
@[simp] theorem setHrp_pending (s : State) (b : Buffer 8) : (s.setHrp b).pending = s.pending := rfl
@[simp] theorem setHrp_responses (s : State) (b : Buffer 8) : (s.setHrp b).responses = s.responses := rfl

@[simp] theorem setSym_chk (s : State) (b : Buffer 5) : (s.setSym b).chk = s.chk := rfl
@[simp] theorem setSym_cks (s : State) (b : Buffer 5) : (s.setSym b).cks = s.cks := rfl
@[simp] theorem setSym_hrp (s : State) (b : Buffer 5) : (s.setSym b).hrp = s.hrp := rfl
@[simp] theorem setSym_sym (s : State) (b : Buffer 5) : (s.setSym b).sym = b := rfl
@[simp] theorem setSym_str (s : State) (b : Buffer 5) : (s.setSym b).str = s.str := rfl
@[simp] theorem setSym_err (s : State) (b : Buffer 5) : (s.setSym b).err = s.err := rfl
@[simp] theorem setSym_pflt (s : State) (b : Buffer 5) : (s.setSym b).pflt = s.pflt := rfl
@[simp] theorem setSym_pending (s : State) (b : Buffer 5) : (s.setSym b).pending = s.pending := rfl
@[simp] theorem setSym_responses (s : State) (b : Buffer 5) : (s.setSym b).responses = s.responses := rfl

@[simp] theorem setStr_chk (s : State) (b : Buffer 8) : (s.setStr b).chk = s.chk := rfl
@[simp] theorem setStr_cks (s : State) (b : Buffer 8) : (s.setStr b).cks = s.cks := rfl
@[simp] theorem setStr_hrp (s : State) (b : Buffer 8) : (s.setStr b).hrp = s.hrp := rfl
@[simp] theorem setStr_sym (s : State) (b : Buffer 8) : (s.setStr b).sym = s.sym := rfl
@[simp] theorem setStr_str (s : State) (b : Buffer 8) : (s.setStr b).str = b := rfl
@[simp] theorem setStr_err (s : State) (b : Buffer 8) : (s.setStr b).err = s.err := rfl
@[simp] theorem setStr_pflt (s : State) (b : Buffer 8) : (s.setStr b).pflt = s.pflt := rfl
@[simp] theorem setStr_pending (s : State) (b : Buffer 8) : (s.setStr b).pending = s.pending := rfl
@[simp] theorem setStr_responses (s : State) (b : Buffer 8) : (s.setStr b).responses = s.responses := rfl

@[simp] theorem setErr_chk (s : State) (c : Code) : (s.setErr c).chk = s.chk := rfl
@[simp] theorem setErr_cks (s : State) (c : Code) : (s.setErr c).cks = s.cks := rfl
@[simp] theorem setErr_hrp (s : State) (c : Code) : (s.setErr c).hrp = s.hrp := rfl
@[simp] theorem setErr_sym (s : State) (c : Code) : (s.setErr c).sym = s.sym := rfl
@[simp] theorem setErr_str (s : State) (c : Code) : (s.setErr c).str = s.str := rfl
@[simp] theorem setErr_err (s : State) (c : Code) : (s.setErr c).err = c.bits := rfl
@[simp] theorem setErr_pflt (s : State) (c : Code) : (s.setErr c).pflt = s.pflt := rfl
@[simp] theorem setErr_pending (s : State) (c : Code) : (s.setErr c).pending = s.pending := rfl
@[simp] theorem setErr_responses (s : State) (c : Code) : (s.setErr c).responses = s.responses := rfl

@[simp] theorem setPflt_chk (s : State) : (s.setPflt).chk = s.chk := rfl
@[simp] theorem setPflt_cks (s : State) : (s.setPflt).cks = s.cks := rfl
@[simp] theorem setPflt_hrp (s : State) : (s.setPflt).hrp = s.hrp := rfl
@[simp] theorem setPflt_sym (s : State) : (s.setPflt).sym = s.sym := rfl
@[simp] theorem setPflt_str (s : State) : (s.setPflt).str = s.str := rfl
@[simp] theorem setPflt_err (s : State) : (s.setPflt).err = s.err := rfl
@[simp] theorem setPflt_pflt (s : State) : (s.setPflt).pflt = true := rfl
@[simp] theorem setPflt_pending (s : State) : (s.setPflt).pending = s.pending := rfl
@[simp] theorem setPflt_responses (s : State) : (s.setPflt).responses = s.responses := rfl

@[simp] theorem respond_chk (s : State) (c : Code) (v : Word) : (s.respond c v).chk = s.chk := rfl
@[simp] theorem respond_cks (s : State) (c : Code) (v : Word) : (s.respond c v).cks = s.cks := rfl
@[simp] theorem respond_hrp (s : State) (c : Code) (v : Word) : (s.respond c v).hrp = s.hrp := rfl
@[simp] theorem respond_sym (s : State) (c : Code) (v : Word) : (s.respond c v).sym = s.sym := rfl
@[simp] theorem respond_str (s : State) (c : Code) (v : Word) : (s.respond c v).str = s.str := rfl
@[simp] theorem respond_err (s : State) (c : Code) (v : Word) : (s.respond c v).err = s.err := rfl
@[simp] theorem respond_pflt (s : State) (c : Code) (v : Word) : (s.respond c v).pflt = s.pflt := rfl
@[simp] theorem respond_pending (s : State) (c : Code) (v : Word) : (s.respond c v).pending = s.pending := rfl
@[simp] theorem respond_responses (s : State) (c : Code) (v : Word) : (s.respond c v).responses = s.responses ++ [⟨c.bits, v⟩] := rfl

@[simp] theorem toReset_chk (s : State) : s.toReset.chk = 0x00000001#32 := rfl
@[simp] theorem toReset_cks (s : State) : s.toReset.cks = ⟨0#5, 0#5, 0#5, 0#5, 0#5, 0#5⟩ := rfl
@[simp] theorem toReset_hrp (s : State) : s.toReset.hrp = ⟨[], 0#8⟩ := rfl
@[simp] theorem toReset_sym (s : State) : s.toReset.sym = ⟨[], 0#8⟩ := rfl
@[simp] theorem toReset_str (s : State) : s.toReset.str = ⟨[], 0#8⟩ := rfl
@[simp] theorem toReset_err (s : State) : s.toReset.err = 0#4 := rfl
@[simp] theorem toReset_pflt (s : State) : s.toReset.pflt = false := rfl
@[simp] theorem toReset_pending (s : State) : s.toReset.pending = s.pending := rfl
@[simp] theorem toReset_responses (s : State) : s.toReset.responses = s.responses := rfl

end Sys2Proof.Machine.State
end

