-- ==== Sys2Proof/Laws/Ops.lean ====
section
/-! SUPPORT. What each shared operation can do: buffers and their canonical form, responses, failures, operands. -/

namespace Sys2Proof.Machine

/-! ### Buffers -/

@[simp] theorem Buffer.empty_cells {w : Nat} : (Buffer.empty : Buffer w).cells = [] := rfl

@[simp] theorem Buffer.empty_len {w : Nat} : (Buffer.empty : Buffer w).len = 0#8 := rfl

@[simp] theorem Buffer.ofList_cells {w : Nat} (l : List (BitVec w)) : (Buffer.ofList l).cells = l := rfl

@[simp] theorem Buffer.ofList_len {w : Nat} (l : List (BitVec w)) :
    (Buffer.ofList l).len = BitVec.ofNat 8 l.length := rfl

theorem Buffer.count_le_cap {w : Nat} (cap : Nat) (b : Buffer w) : b.count cap ≤ cap := Nat.min_le_right _ _

theorem Buffer.valid_length_le {w : Nat} (cap : Nat) (b : Buffer w) : (b.valid cap).length ≤ b.count cap := by
  simp [Buffer.valid, List.length_take]

/-- In canonical form the valid contents are all the cells. -/
theorem Buffer.valid_of_wf {w cap : Nat} {b : Buffer w} (h : b.wf cap) : b.valid cap = b.cells := by
  unfold Buffer.valid
  exact List.take_of_length_le (Nat.le_of_eq h)

/-- In canonical form, with the counter within the capacity, the counter is the number of cells. -/
theorem Buffer.length_of_wf {w cap : Nat} {b : Buffer w} (h : b.wf cap) (hc : b.len.toNat ≤ cap) :
    b.cells.length = b.len.toNat := by
  have h' : b.cells.length = min b.len.toNat cap := h
  omega

theorem Buffer.read_of_wf {w cap : Nat} {b : Buffer w} (h : b.wf cap) (i : Nat) : b.read cap i = b.cells[i]? := by
  unfold Buffer.read
  rw [Buffer.valid_of_wf h]

theorem Buffer.empty_wf {w cap : Nat} : (Buffer.empty : Buffer w).wf cap := by simp [Buffer.wf, Buffer.count]

theorem Buffer.ofList_wf {w cap : Nat} {l : List (BitVec w)} (h : l.length ≤ cap) (hc : cap ≤ 255) :
    (Buffer.ofList l).wf cap := by
  simp only [Buffer.wf, Buffer.count, Buffer.ofList_cells, Buffer.ofList_len, BitVec.toNat_ofNat]
  omega

theorem Buffer.push_len {w : Nat} (cap : Nat) (b : Buffer w) (v : BitVec w) :
    (b.push cap v).len.toNat = min (b.len.toNat + 1) 255 := by
  have := b.len.isLt
  simp only [Buffer.push, Config.lenMax, BitVec.toNat_ofNat]
  omega

theorem Buffer.push_cells {w : Nat} (cap : Nat) (b : Buffer w) (v : BitVec w) :
    (b.push cap v).cells = if b.len.toNat < cap then b.cells ++ [v] else b.cells := rfl

/-- A push keeps the canonical form. -/
theorem Buffer.push_wf {w cap : Nat} {b : Buffer w} (hc : cap ≤ 255) (h : b.wf cap) (v : BitVec w) :
    (b.push cap v).wf cap := by
  have hl : b.cells.length = min b.len.toNat cap := h
  simp only [Buffer.wf, Buffer.count, Buffer.push_len, Buffer.push_cells]
  split <;> simp <;> omega

/-- What a push does to the cells: the one at the index the counter named gets the value if it exists, no other
changes. -/
theorem Buffer.push_read {w cap : Nat} {b : Buffer w} (hc : cap ≤ 255) (h : b.wf cap) (v : BitVec w) :
    (∀ k, k ≠ b.len.toNat → (b.push cap v).read cap k = b.read cap k) ∧
      (b.push cap v).read cap b.len.toNat = if b.len.toNat < cap then some v else none := by
  have hl : b.cells.length = min b.len.toNat cap := h
  simp only [Buffer.read_of_wf (Buffer.push_wf hc h v), Buffer.read_of_wf h, Buffer.push_cells]
  by_cases hlt : b.len.toNat < cap
  · simp only [if_pos hlt]
    refine ⟨fun k hk => ?_, ?_⟩
    · by_cases hk2 : k < b.cells.length
      · rw [List.getElem?_append_left hk2]
      · rw [List.getElem?_append_right (by omega), List.getElem?_eq_none (by simp; omega),
          List.getElem?_eq_none (by omega)]
    · rw [List.getElem?_append_right (by omega), show b.len.toNat - b.cells.length = 0 by omega]
      rfl
  · simp only [if_neg hlt]
    exact ⟨fun _ _ => trivial, List.getElem?_eq_none (by omega)⟩

/-- A buffer chosen between two canonical ones is canonical. -/
theorem Buffer.ite_wf {w cap : Nat} {c : Bool} {a b : Buffer w} (ha : a.wf cap) (hb : b.wf cap) :
    (if c = true then a else b).wf cap := by cases c <;> assumption

/-! ### The memory as a whole: every memory operation keeps the canonical form -/

theorem Memory.wf_setHrp {s : State} {b : Buffer 8} (h : Memory.wf s) (hb : b.wf Config.hrpCap) :
    Memory.wf (s.setHrp b) := ⟨hb, h.2.1, h.2.2⟩

theorem Memory.wf_setSym {s : State} {b : Buffer 5} (h : Memory.wf s) (hb : b.wf Config.symCap) :
    Memory.wf (s.setSym b) := ⟨h.1, hb, h.2.2⟩

theorem Memory.wf_setStr {s : State} {b : Buffer 8} (h : Memory.wf s) (hb : b.wf Config.strCap) :
    Memory.wf (s.setStr b) := ⟨h.1, h.2.1, hb⟩

theorem Memory.wf_reset : Memory.wf State.reset := by decide

theorem Memory.wf_toReset (s : State) : Memory.wf s.toReset := Memory.wf_reset

theorem State.hrpBytes_of_wf {s : State} (h : Memory.wf s) : s.hrpBytes = s.hrp.cells := Buffer.valid_of_wf h.1

theorem State.symbols_of_wf {s : State} (h : Memory.wf s) : s.symbols = s.sym.cells := Buffer.valid_of_wf h.2.1

theorem State.strBytes_of_wf {s : State} (h : Memory.wf s) : s.strBytes = s.str.cells := Buffer.valid_of_wf h.2.2

theorem State.hrp_length {s : State} (h : Memory.wf s) (hl : s.hrp.len.toNat ≤ 83) :
    s.hrp.cells.length = s.hrp.len.toNat := Buffer.length_of_wf h.1 hl

theorem State.sym_length {s : State} (h : Memory.wf s) (hl : s.sym.len.toNat ≤ 88) :
    s.sym.cells.length = s.sym.len.toNat := Buffer.length_of_wf h.2.1 hl

theorem State.str_length {s : State} (h : Memory.wf s) (hl : s.str.len.toNat ≤ 90) :
    s.str.cells.length = s.str.len.toNat := Buffer.length_of_wf h.2.2 hl

theorem State.hrp_read {s : State} (h : Memory.wf s) (i : Nat) : s.hrp.read 83 i = s.hrp.cells[i]? :=
  Buffer.read_of_wf h.1 i

theorem State.sym_read {s : State} (h : Memory.wf s) (i : Nat) : s.sym.read 88 i = s.sym.cells[i]? :=
  Buffer.read_of_wf h.2.1 i

theorem State.str_read {s : State} (h : Memory.wf s) (i : Nat) : s.str.read 90 i = s.str.cells[i]? :=
  Buffer.read_of_wf h.2.2 i

/-! ### Responses and failures -/

theorem State.answer_eq (s : State) (v : Word) : s.answer v = .next (s.respond .ok v) := rfl

theorem State.finish_eq (s : State) : s.finish = .next ((s.setErr .ok).respond .ok 0#32) := rfl

theorem State.raise_eq (s : State) (c : Code) : s.raise c = .next ((s.recordFailure c).respond c 0#32) := rfl

/-- A protocol fault records itself in `PFLT` and nowhere else. -/
theorem State.recordFailure_protocol {c : Code} (h : c.isProtocolFault = true) (s : State) :
    s.recordFailure c = s.setPflt := by simp [State.recordFailure, h]

/-- An operation result records itself in `ERR` and nowhere else. -/
theorem State.recordFailure_operation {c : Code} (h : c.isProtocolFault = false) (s : State) :
    s.recordFailure c = s.setErr c := by simp [State.recordFailure, h]

theorem Code.bits_le (c : Code) : c.bits.toNat ≤ 12 := by cases c <;> decide

theorem Code.operation_bits_le {c : Code} (h : c.isProtocolFault = false) : c.bits.toNat ≤ 9 := by
  cases c <;> first | decide | exact absurd h (by decide)

/-! ### Operands -/

/-- A symbol's operand byte is read back as that symbol. -/
theorem symbolOperand_of_symbol (v : Symbol) : symbolOperand (v.setWidth 8) = some v := by
  revert v; decide

/-- An operand byte of 32 or more is no symbol. -/
theorem symbolOperand_none {arg : Byte} (h : 32 ≤ arg.toNat) : symbolOperand arg = none := by
  revert arg; decide

theorem answerRead_some {w : Nat} (s : State) (v : BitVec w) : answerRead s (some v) = s.answer (v.setWidth 32) := rfl

theorem answerRead_none {w : Nat} (s : State) : answerRead s (none : Option (BitVec w)) = s.raise .indexRange := rfl

end Sys2Proof.Machine
end

