-- ==== Sys2Proof/Laws/Decoder.lean ====
section
/-! SUPPORT. What the decoder's steps compute: the scan as one formula, the last separator, the structural checks, the reverse mapping. -/

namespace Sys2Proof.Machine

/-! ### Characters -/

theorem inRange_iff (c : Byte) : inRange c = true ↔ 33 ≤ c.toNat ∧ c.toNat ≤ 126 := by simp [inRange]

theorem isUpper_iff (c : Byte) : isUpper c = true ↔ 0x41 ≤ c.toNat ∧ c.toNat ≤ 0x5A := by simp [isUpper]

theorem isLower_iff (c : Byte) : isLower c = true ↔ 0x61 ≤ c.toNat ∧ c.toNat ≤ 0x7A := by simp [isLower]

/-- Folding makes no separator and unmakes none. -/
theorem foldCase_eq_sep (c : Byte) : foldCase c = 0x31#8 ↔ c = 0x31#8 := by revert c; decide

theorem foldCase_of_not_upper {c : Byte} (h : isUpper c = false) : foldCase c = c := by simp [foldCase, h]

/-! ### The reverse mapping -/

/-- A character maps to a symbol exactly when it is that symbol's alphabet character. -/
theorem reverseChar_eq_some (x : Byte) (s : Symbol) : reverseChar x = some s ↔ x = charset s := by
  revert x s; decide +kernel

theorem reverseChar_charset (s : Symbol) : reverseChar (charset s) = some s := (reverseChar_eq_some _ _).mpr rfl

theorem reverseChar_eq_none (x : Byte) : reverseChar x = none ↔ x ∉ charsetTable := by revert x; decide +kernel

theorem charset_injective {s t : Symbol} (h : charset s = charset t) : s = t := by
  have hs := reverseChar_charset s
  rw [h, reverseChar_charset] at hs
  exact (Option.some.inj hs).symm

/-- No alphabet character is the separator, an upper-case letter or outside [33,126], and folding leaves it. -/
theorem charset_char (s : Symbol) :
    charset s ≠ 0x31#8 ∧ isUpper (charset s) = false ∧ inRange (charset s) = true ∧ foldCase (charset s) = charset s := by
  revert s; decide

/-- What the engine absorbs for a data character is what the specification's words say. -/
theorem absorbedValue_reverse (x : Byte) : absorbedValue (reverseChar (foldCase x)) = specAbsorbed x := by
  revert x; decide +kernel

/-! ### The scan -/

/-- The index of the last separator of `cs`, counted from `i`; `acc` if there is none. -/
def lastSep : Nat → Option Nat → List Byte → Option Nat
  | _, acc, [] => acc
  | i, acc, c :: cs => lastSep (i + 1) (if c = 0x31#8 then some i else acc) cs

/-- The whole scan as one formula. -/
theorem scanFrom_eq (cs : List Byte) : ∀ (i : Nat) (a : Scan), scanFrom i a cs =
    if cs.all inRange then
      some { up := a.up || cs.any isUpper, lo := a.lo || cs.any isLower,
             sep := lastSep i a.sep cs, folded := a.folded ++ cs.map foldCase }
    else none := by
  induction cs with
  | nil => intro i a; simp [scanFrom, lastSep]
  | cons c cs ih =>
    intro i a
    unfold scanFrom scanChar
    cases hc : inRange c with
    | false => simp [hc]
    | true =>
      rw [if_pos rfl]
      simp only [ih, List.all_cons, hc, Bool.true_and, List.any_cons, List.map_cons, lastSep, foldCase_eq_sep,
        Config.sepChar_eq, Bool.or_assoc, List.append_assoc, List.singleton_append]

theorem scan_eq (cs : List Byte) : scan cs =
    if cs.all inRange then
      some { up := cs.any isUpper, lo := cs.any isLower, sep := lastSep 0 none cs, folded := cs.map foldCase }
    else none := by
  simp [scan, scanFrom_eq, scanStart]

theorem lastSep_of_not_mem (cs : List Byte) : ∀ (i : Nat) (acc : Option Nat), 0x31#8 ∉ cs → lastSep i acc cs = acc := by
  induction cs with
  | nil => intro i acc _; rfl
  | cons c cs ih =>
    intro i acc h
    have hc : c ≠ 0x31#8 := fun e => h (by simp [e])
    simp only [lastSep, if_neg hc]
    exact ih _ _ (fun m => h (List.mem_cons_of_mem _ m))

theorem lastSep_split (h d : List Byte) : ∀ (i : Nat) (acc : Option Nat), 0x31#8 ∉ d →
    lastSep i acc (h ++ 0x31#8 :: d) = some (i + h.length) := by
  induction h with
  | nil => intro i acc hd; simp [lastSep, lastSep_of_not_mem d _ _ hd]
  | cons c h ih =>
    intro i acc hd
    simp only [List.cons_append, lastSep, ih _ _ hd, List.length_cons]
    congr 1
    omega

/-- A string with a separator splits at its last one. -/
theorem exists_split (cs : List Byte) (h : 0x31#8 ∈ cs) : ∃ p d, SplitsAs cs p d := by
  induction cs with
  | nil => simp at h
  | cons c cs ih =>
    by_cases hm : 0x31#8 ∈ cs
    · obtain ⟨p, d, rfl, hd⟩ := ih hm
      exact ⟨c :: p, d, rfl, hd⟩
    · have hc : c = 0x31#8 := by simpa [hm, eq_comm] using h
      exact ⟨[], cs, by simp [hc], hm⟩

/-! ### Steps 1 to 4 -/

theorem all_inRange_iff (cs : List Byte) : cs.all inRange = true ↔ AllInRange cs := by
  simp [List.all_eq_true, inRange_iff]

theorem any_isUpper_iff (cs : List Byte) : cs.any isUpper = true ↔ HasUpper cs := by
  simp [List.any_eq_true, isUpper_iff]

theorem any_isLower_iff (cs : List Byte) : cs.any isLower = true ↔ HasLower cs := by
  simp [List.any_eq_true, isLower_iff]

theorem validate_too_long {n : Nat} (str : List Byte) (h : 90 < n) : validate n str = .error .tooLong := by
  simp [validate, h]

theorem validate_too_short {n : Nat} (str : List Byte) (h : n < 8) : validate n str = .error .tooShort := by
  have h' : ¬ 90 < n := by omega
  simp [validate, h, h']

theorem validate_out_of_range {n : Nat} {str : List Byte} (h₁ : 8 ≤ n) (h₂ : n ≤ 90) (h : ¬ AllInRange str) :
    validate n str = .error .outOfRangeCharacter := by
  rw [← all_inRange_iff, Bool.not_eq_true] at h
  simp [validate, scan_eq, h, Nat.not_lt.mpr h₁, Nat.not_lt.mpr h₂]

/-- Past the length and range checks, `validate` is the structural checks and the split. -/
theorem validate_in_range {n : Nat} {str : List Byte} (h₁ : 8 ≤ n) (h₂ : n ≤ 90) (h : AllInRange str) :
    validate n str =
      structureAndSplit n ⟨str.any isUpper, str.any isLower, lastSep 0 none str, str.map foldCase⟩ := by
  rw [← all_inRange_iff] at h
  simp [validate, scan_eq, h, Nat.not_lt.mpr h₁, Nat.not_lt.mpr h₂]

theorem validate_mixed {n : Nat} {str : List Byte} (h₁ : 8 ≤ n) (h₂ : n ≤ 90) (h : AllInRange str)
    (hm : HasUpper str ∧ HasLower str) : validate n str = .error .mixedCase := by
  rw [← any_isUpper_iff, ← any_isLower_iff] at hm
  simp [validate_in_range h₁ h₂ h, structureAndSplit, checkStructure, hm.1, hm.2]

theorem not_mixed_bool {str : List Byte} (hm : ¬ (HasUpper str ∧ HasLower str)) :
    (str.any isUpper && str.any isLower) = false := by
  rw [← any_isUpper_iff, ← any_isLower_iff] at hm
  revert hm
  cases str.any isUpper <;> cases str.any isLower <;> simp

theorem validate_no_separator {n : Nat} {str : List Byte} (h₁ : 8 ≤ n) (h₂ : n ≤ 90) (h : AllInRange str)
    (hm : ¬ (HasUpper str ∧ HasLower str)) (hs : 0x31#8 ∉ str) : validate n str = .error .missingSeparator := by
  rw [validate_in_range h₁ h₂ h, structureAndSplit, checkStructure, if_neg (by rw [not_mixed_bool hm]; decide), lastSep_of_not_mem _ _ _ hs]

/-- A string with a separator: the two remaining structural checks, then the split. -/
theorem validate_split {n : Nat} {h d : List Byte} (h₁ : 8 ≤ n) (h₂ : n ≤ 90) (hr : AllInRange (h ++ 0x31#8 :: d))
    (hm : ¬ (HasUpper (h ++ 0x31#8 :: d) ∧ HasLower (h ++ 0x31#8 :: d))) (hd : 0x31#8 ∉ d) :
    validate n (h ++ 0x31#8 :: d) =
      if h = [] then .error .emptyHRP
      else if h.length + 7 > n then .error .checksumTooShort
      else .ok ⟨h.map foldCase, d.map (fun x => reverseChar (foldCase x))⟩ := by
  rw [validate_in_range h₁ h₂ hr, structureAndSplit, checkStructure, if_neg (by rw [not_mixed_bool hm]; decide), lastSep_split _ _ _ _ hd]
  simp only [Nat.zero_add, List.length_eq_zero_iff]
  by_cases he : h = []
  · simp [he]
  · rw [if_neg he, if_neg he]
    by_cases hl : h.length + 7 > n
    · rw [if_pos hl, if_pos hl]
    · rw [if_neg hl, if_neg hl]
      simp only [splitAtSep, List.map_append, List.map_cons]
      rw [List.take_append_of_le_length (by simp), List.take_of_length_le (by simp),
        List.drop_append, List.drop_of_length_le (by simp)]
      simp [Function.comp_def]

/-- When steps 1 to 4 pass: every check held, and the split is the folded prefix and the mapped data part. -/
theorem validate_ok {n : Nat} {str : List Byte} {sp : Split} (hv : validate n str = .ok sp) :
    8 ≤ n ∧ n ≤ 90 ∧ AllInRange str ∧ ¬ (HasUpper str ∧ HasLower str) ∧
      ∃ h d, SplitsAs str h d ∧ h ≠ [] ∧ h.length + 7 ≤ n ∧
        sp = ⟨h.map foldCase, d.map (fun x => reverseChar (foldCase x))⟩ := by
  by_cases h₂ : 90 < n
  · simp [validate_too_long str h₂] at hv
  by_cases h₁ : n < 8
  · simp [validate_too_short str h₁] at hv
  rw [Nat.not_lt] at h₁ h₂
  by_cases hr : AllInRange str
  swap
  · simp [validate_out_of_range h₁ h₂ hr] at hv
  by_cases hm : HasUpper str ∧ HasLower str
  · simp [validate_mixed h₁ h₂ hr hm] at hv
  by_cases hs : 0x31#8 ∈ str
  swap
  · simp [validate_no_separator h₁ h₂ hr hm hs] at hv
  obtain ⟨h, d, rfl, hd⟩ := exists_split str hs
  rw [validate_split h₁ h₂ hr hm hd] at hv
  by_cases he : h = []
  · simp [he] at hv
  rw [if_neg he] at hv
  by_cases hl : h.length + 7 > n
  · simp [hl] at hv
  rw [if_neg hl] at hv
  exact ⟨h₁, h₂, hr, hm, h, d, ⟨rfl, hd⟩, he, by omega, (Except.ok.inj hv).symm⟩

/-- A failure of steps 1 to 4 is one of the codes 1 to 7. -/
theorem validate_error {n : Nat} {str : List Byte} {c : Code} (hv : validate n str = .error c) :
    1 ≤ c.bits.toNat ∧ c.bits.toNat ≤ 7 ∧ c.isProtocolFault = false := by
  unfold validate at hv
  split at hv
  · cases hv; decide
  split at hv
  · cases hv; decide
  split at hv
  · cases hv; decide
  unfold structureAndSplit at hv
  split at hv
  · rename_i hc
    cases hv
    unfold checkStructure at hc
    split at hc
    · cases hc; decide
    split at hc
    · cases hc; decide
    split at hc
    · cases hc; decide
    split at hc
    · cases hc; decide
    · cases hc
  · cases hv

/-! ### Step 5 -/

/-- The residue of a split string is the specification's. -/
theorem residue_split (h d : List Byte) :
    Split.residue ⟨h.map foldCase, d.map (fun x => reverseChar (foldCase x))⟩ = specResidue h d := by
  simp [Split.residue, specResidue, polyMod, absorbAll, Function.comp_def, absorbedValue_reverse]

/-- The flag `inv` says that some data character is not in the alphabet. -/
theorem inv_split (h d : List Byte) :
    Split.inv ⟨h, d.map (fun x => reverseChar (foldCase x))⟩ = true ↔ ∃ x ∈ d, foldCase x ∉ charsetTable := by
  simp [Split.inv, List.any_eq_true, Option.isNone_iff_eq_none, reverseChar_eq_none]

/-- A data part inside the alphabet is the image of symbols. -/
theorem exists_symbols (d : List Byte) (hd : ∀ x ∈ d, foldCase x ∈ charsetTable) :
    ∃ ss : List Symbol, d.map foldCase = ss.map charset ∧
      d.map (fun x => reverseChar (foldCase x)) = ss.map some := by
  induction d with
  | nil => exact ⟨[], rfl, rfl⟩
  | cons x d ih =>
    obtain ⟨ss, h₁, h₂⟩ := ih (fun y hy => hd y (List.mem_cons_of_mem _ hy))
    have hx := hd x List.mem_cons_self
    cases hs : reverseChar (foldCase x) with
    | none => exact absurd hx ((reverseChar_eq_none _).mp hs)
    | some s => exact ⟨s :: ss, by simp [h₁, (reverseChar_eq_some _ _).mp hs], by simp [h₂, hs]⟩

/-- The payload of a data part of symbols: all but the last six. -/
theorem payload_symbols (h : List Byte) (ss : List Symbol) :
    Split.payload ⟨h, ss.map some⟩ = ss.take (ss.length - 6) := by
  simp [Split.payload, ← List.map_take, List.filterMap_map]

end Sys2Proof.Machine
end

