-- ==== Sys2Proof/Laws/Exec.lean ====
section
/-! SUPPORT. What each command can do, said once: its next state on every path, guards included. -/

namespace Sys2Proof.Machine

/-- The next state of a protocol fault (R181, R186): the sticky bit, the response, nothing else. -/
def protocolFault (s : State) (k : BitVec 4) : State :=
  { s with pflt := true, responses := s.responses ++ [⟨k, 0#32⟩] }

/-- The next state of a command that only answers. -/
def answered (s : State) (v : Word) : State := { s with responses := s.responses ++ [⟨0#4, v⟩] }

/-- The next state of an operation command that ends with code `k` and has written `CHK` and nothing else. -/
def ended (s : State) (chk : Word) (k : BitVec 4) : State :=
  { s with chk := chk, err := k, responses := s.responses ++ [⟨k, 0#32⟩] }

theorem illegalCommand_eq (s : State) : illegalCommand s = .next (protocolFault s 12#4) := rfl

theorem execWord_ok {w : CmdWord} {i : Instr} (h : decode w = .ok i) (s : State) : execWord w s = exec i s := by
  simp [execWord, h]

theorem execWord_error {w : CmdWord} {e : DecodeError} (h : decode w = .error e) (s : State) :
    execWord w s = .next (protocolFault s 12#4) := by
  simp [execWord, h, illegalCommand_eq]

theorem next_injective {a b : State} (h : (Host.Outcome.next a : Result) = .next b) : a = b := by injection h

/-! ### Transfers -/

/-- A read answers a value or is `IndexRange`; nothing else changes. -/
theorem answerRead_cases {w : Nat} (s : State) (o : Option (BitVec w)) :
    (∃ v : BitVec w, o = some v ∧ answerRead s o = .next (answered s (v.setWidth 32))) ∨
      (o = none ∧ answerRead s o = .next (protocolFault s 11#4)) := by
  cases o with
  | none => exact .inr ⟨rfl, rfl⟩
  | some v => exact .inl ⟨v, rfl, rfl⟩

theorem execPmAbs_cases (arg : Byte) (s : State) :
    (∃ v, symbolOperand arg = some v ∧
      execPmAbs arg s = .next (answered (s.setChk (absorb s.chk (v.setWidth 32))) 0#32)) ∨
      (symbolOperand arg = none ∧ execPmAbs arg s = .next (protocolFault s 10#4)) := by
  cases h : symbolOperand arg with
  | none => exact .inr ⟨rfl, by simp only [execPmAbs, h]; rfl⟩
  | some v => exact .inl ⟨v, rfl, by simp only [execPmAbs, h]; rfl⟩

theorem execPushS_cases (arg : Byte) (s : State) :
    (∃ v, symbolOperand arg = some v ∧
      execPushS arg s = .next (answered (s.setSym (s.sym.push 88 v)) 0#32)) ∨
      (symbolOperand arg = none ∧ execPushS arg s = .next (protocolFault s 10#4)) := by
  cases h : symbolOperand arg with
  | none => exact .inr ⟨rfl, by simp only [execPushS, h]; rfl⟩
  | some v => exact .inl ⟨v, rfl, by simp only [execPushS, h]; rfl⟩

/-! ### Operations -/

theorem execPmHrpx_cases (s : State) :
    (s.hrp.len.toNat ≤ 83 ∧ execPmHrpx s = .next (ended s (absorbAll s.chk (hrpExpand s.hrpBytes)) 0#4)) ∨
      (83 < s.hrp.len.toNat ∧ execPmHrpx s = .next (ended s s.chk 9#4)) := by
  by_cases h : s.hrp.len.toNat > 83
  · exact .inr ⟨h, if_pos h⟩
  · exact .inl ⟨by omega, if_neg h⟩

theorem execCkCreate_cases (s : State) :
    (s.hrp.len.toNat ≤ 83 ∧ s.sym.len.toNat ≤ 88 ∧ execCkCreate s = .next
      ((ended s (createResidue s.hrpBytes s.symbols) 0#4).setCks (createChecksum s.hrpBytes s.symbols))) ∨
      ((83 < s.hrp.len.toNat ∨ 88 < s.sym.len.toNat) ∧ execCkCreate s = .next (ended s s.chk 9#4)) := by
  by_cases h : s.hrp.len.toNat > 83 ∨ s.sym.len.toNat > 88
  · exact .inr ⟨h, if_pos h⟩
  · exact .inl ⟨by omega, by omega, if_neg h⟩

theorem execCkVerify_cases (s : State) :
    (s.hrp.len.toNat ≤ 83 ∧ s.sym.len.toNat ≤ 88 ∧ ∃ p k, p = polyMod (verifyValues s.hrpBytes s.symbols) ∧
      k = (if p = 1#32 then 0#4 else 8#4) ∧ execCkVerify s = .next (ended s p k)) ∨
      ((83 < s.hrp.len.toNat ∨ 88 < s.sym.len.toNat) ∧ execCkVerify s = .next (ended s s.chk 9#4)) := by
  by_cases h : s.hrp.len.toNat > 83 ∨ s.sym.len.toNat > 88
  · exact .inr ⟨h, if_pos h⟩
  · refine .inl ⟨by omega, by omega, _, _, rfl, rfl, ?_⟩
    unfold execCkVerify
    rw [if_neg h]
    by_cases hp : polyMod (verifyValues s.hrpBytes s.symbols) = 1#32
    · rw [if_pos hp]
      exact if_neg (not_not.mpr hp)
    · rw [if_neg hp]
      exact if_pos hp

theorem execEncRun_cases (s : State) :
    (s.hrp.len.toNat + s.sym.len.toNat + 7 ≤ 90 ∧ execEncRun s = .next
      (((ended s (createResidue s.hrpBytes s.symbols) 0#4).setCks (createChecksum s.hrpBytes s.symbols)).setStr
        (.ofList (encodeString s.hrpBytes s.symbols)))) ∨
      (90 < s.hrp.len.toNat + s.sym.len.toNat + 7 ∧
        execEncRun s = .next ((ended s s.chk 9#4).setStr .empty)) := by
  by_cases h : s.hrp.len.toNat + s.sym.len.toNat + 7 > 90
  · exact .inr ⟨h, if_pos h⟩
  · exact .inl ⟨by omega, if_neg h⟩

/-- `DEC.RUN`: a failure of steps 1 to 4, a rejection in step 5, or the success of step 6. -/
theorem execDecRun_cases (s : State) :
    (∃ c, validate s.str.len.toNat s.strBytes = .error c ∧
      execDecRun s = .next (decFailed s s.chk c.bits)) ∨
    (∃ sp, validate s.str.len.toNat s.strBytes = .ok sp ∧ sp.rejected = true ∧
      execDecRun s = .next (decFailed s sp.residue 8#4)) ∨
    (∃ sp, validate s.str.len.toNat s.strBytes = .ok sp ∧ sp.rejected = false ∧
      execDecRun s = .next (decAccepted s sp.hrp sp.payload)) := by
  cases hv : validate s.str.len.toNat s.strBytes with
  | error c =>
    refine .inl ⟨c, rfl, ?_⟩
    simp only [execDecRun, hv, decFail, State.raise_eq, State.recordFailure_operation (validate_error hv).2.2]
    rfl
  | ok sp =>
    cases hr : sp.rejected with
    | true => exact .inr (.inl ⟨sp, rfl, hr, by simp only [execDecRun, hv, hr, if_true]; rfl⟩)
    | false =>
      refine .inr (.inr ⟨sp, rfl, hr, ?_⟩)
      have hp : sp.residue = 1#32 := by simpa using (Bool.or_eq_false_iff.mp hr).1
      simp only [execDecRun, hv, hr, Bool.false_eq_true, if_false, hp]
      rfl

/-! ### All commands together -/

/-- Everything a command can end in, whatever it is: an answer that leaves `ERR` and `PFLT`, the reset of RST, a
protocol fault, or the end of an operation command. -/
inductive Ends (i : Instr) (s : State) : State → Prop where
  | answer (u : State) (v : Word)
      (kept : u.err = s.err ∧ u.pflt = s.pflt ∧ u.responses = s.responses ∧ u.pending = s.pending)
      (op : isOperation i = false) (rst : i ≠ .rst) (value : v ≠ 0#32 → isRead i = true) : Ends i s (answered u v)
  | reset (rst : i = .rst) : Ends i s (answered s.toReset 0#32)
  | fault (k : BitVec 4) (code : k = 10#4 ∨ k = 11#4) (op : isOperation i = false) (rst : i ≠ .rst) :
      Ends i s (protocolFault s k)
  | operation (t : State) (k : BitVec 4) (code : k.toNat ≤ 9) (err : t.err = k) (pflt : t.pflt = s.pflt)
      (responses : t.responses = s.responses ++ [⟨k, 0#32⟩]) (pending : t.pending = s.pending)
      (op : isOperation i = true) : Ends i s t

theorem answerRead_ends {w : Nat} {i : Instr} (s : State) (o : Option (BitVec w)) (h₁ : isOperation i = false)
    (h₂ : i ≠ .rst) (h₃ : isRead i = true) : ∃ t, answerRead s o = .next t ∧ Ends i s t := by
  rcases answerRead_cases s o with ⟨v, -, e⟩ | ⟨-, e⟩
  · exact ⟨_, e, .answer s _ ⟨rfl, rfl, rfl, rfl⟩ h₁ h₂ (fun _ => h₃)⟩
  · exact ⟨_, e, .fault _ (.inr rfl) h₁ h₂⟩

theorem operands_ends {i : Instr} {s : State} {o : Option Symbol} {r : Result} {u : Symbol → State}
    (h : (∃ v, o = some v ∧ r = .next (answered (u v) 0#32)) ∨ (o = none ∧ r = .next (protocolFault s 10#4)))
    (kept : ∀ v, (u v).err = s.err ∧ (u v).pflt = s.pflt ∧ (u v).responses = s.responses ∧
      (u v).pending = s.pending)
    (h₁ : isOperation i = false) (h₂ : i ≠ .rst) : ∃ t, r = .next t ∧ Ends i s t := by
  rcases h with ⟨v, -, e⟩ | ⟨-, e⟩
  · exact ⟨_, e, .answer _ _ (kept v) h₁ h₂ (fun h => absurd rfl h)⟩
  · exact ⟨_, e, .fault _ (.inl rfl) h₁ h₂⟩

theorem exec_ends (i : Instr) (s : State) : ∃ t, exec i s = .next t ∧ Ends i s t := by
  have plain : ∀ {j : Instr} {u : State}, u.err = s.err ∧ u.pflt = s.pflt ∧ u.responses = s.responses ∧
      u.pending = s.pending → isOperation j = false → j ≠ .rst → Ends j s (answered u 0#32) :=
    fun kept h₁ h₂ => .answer _ _ kept h₁ h₂ (fun h => absurd rfl h)
  have read : ∀ {j : Instr} (v : Word), isOperation j = false → j ≠ .rst → isRead j = true →
      Ends j s (answered s v) := fun v h₁ h₂ h₃ => .answer _ v ⟨rfl, rfl, rfl, rfl⟩ h₁ h₂ (fun _ => h₃)
  cases i with
  | nop => exact ⟨_, rfl, plain (u := s) ⟨rfl, rfl, rfl, rfl⟩ rfl (by simp)⟩
  | rst => exact ⟨_, rfl, .reset rfl⟩
  | pmInit => exact ⟨_, rfl, plain (u := s.setChk Config.pmInit) ⟨rfl, rfl, rfl, rfl⟩ rfl (by simp)⟩
  | pmAbs a => exact operands_ends (execPmAbs_cases a s) (fun _ => ⟨rfl, rfl, rfl, rfl⟩) rfl (by simp)
  | pmHrpx =>
    rcases execPmHrpx_cases s with ⟨-, e⟩ | ⟨-, e⟩
    · exact ⟨_, e, .operation _ 0#4 (by decide) rfl rfl rfl rfl rfl⟩
    · exact ⟨_, e, .operation _ 9#4 (by decide) rfl rfl rfl rfl rfl⟩
  | ckCreate =>
    rcases execCkCreate_cases s with ⟨-, -, e⟩ | ⟨-, e⟩
    · exact ⟨_, e, .operation _ 0#4 (by decide) rfl rfl rfl rfl rfl⟩
    · exact ⟨_, e, .operation _ 9#4 (by decide) rfl rfl rfl rfl rfl⟩
  | ckVerify =>
    rcases execCkVerify_cases s with ⟨-, -, p, k, -, hk, e⟩ | ⟨-, e⟩
    · exact ⟨_, e, .operation _ k (by subst hk; split <;> decide) rfl rfl rfl rfl rfl⟩
    · exact ⟨_, e, .operation _ 9#4 (by decide) rfl rfl rfl rfl rfl⟩
  | encRun =>
    rcases execEncRun_cases s with ⟨-, e⟩ | ⟨-, e⟩
    · exact ⟨_, e, .operation _ 0#4 (by decide) rfl rfl rfl rfl rfl⟩
    · exact ⟨_, e, .operation _ 9#4 (by decide) rfl rfl rfl rfl rfl⟩
  | decRun =>
    rcases execDecRun_cases s with ⟨c, h, e⟩ | ⟨sp, -, -, e⟩ | ⟨sp, -, -, e⟩
    · exact ⟨_, e, .operation _ c.bits (Nat.le_trans (validate_error h).2.1 (by decide)) rfl rfl rfl rfl rfl⟩
    · exact ⟨_, e, .operation _ 8#4 (by decide) rfl rfl rfl rfl rfl⟩
    · exact ⟨_, e, .operation _ 0#4 (by decide) rfl rfl rfl rfl rfl⟩
  | clr m => exact ⟨_, rfl, plain (u := { s with hrp := _, sym := _, str := _ }) ⟨rfl, rfl, rfl, rfl⟩ rfl (by simp)⟩
  | pushH b => exact ⟨_, rfl, plain (u := s.setHrp (s.hrp.push 83 b)) ⟨rfl, rfl, rfl, rfl⟩ rfl (by simp)⟩
  | pushS a => exact operands_ends (execPushS_cases a s) (fun _ => ⟨rfl, rfl, rfl, rfl⟩) rfl (by simp)
  | pushT b => exact ⟨_, rfl, plain (u := s.setStr (s.str.push 90 b)) ⟨rfl, rfl, rfl, rfl⟩ rfl (by simp)⟩
  | rdH a => exact answerRead_ends s _ rfl (by simp) rfl
  | rdS a => exact answerRead_ends s _ rfl (by simp) rfl
  | rdT a => exact answerRead_ends s _ rfl (by simp) rfl
  | rdK a => exact answerRead_ends s _ rfl (by simp) rfl
  | rdregStatus => exact ⟨_, rfl, read _ rfl (by simp) rfl⟩
  | rdregChk => exact ⟨_, rfl, read _ rfl (by simp) rfl⟩
  | rdregHlen => exact ⟨_, rfl, read _ rfl (by simp) rfl⟩
  | rdregSlen => exact ⟨_, rfl, read _ rfl (by simp) rfl⟩
  | rdregTlen => exact ⟨_, rfl, read _ rfl (by simp) rfl⟩

theorem ends_of_exec {i : Instr} {s t : State} (h : exec i s = .next t) : Ends i s t := by
  obtain ⟨u, e, hu⟩ := exec_ends i s
  rw [e] at h
  exact next_injective h ▸ hu

/-! ### Runs -/

/-- A run of two parts. -/
theorem runInstrs_append (is js : List Instr) (s : State) :
    runInstrs (is ++ js) s =
      match runInstrs is s with
      | .next t => runInstrs js t
      | .fault r => .fault r
      | .refused r => .refused r := by
  induction is generalizing s with
  | nil => rfl
  | cons i is ih =>
    obtain ⟨t, e, -⟩ := exec_ends i s
    simp only [List.cons_append, runInstrs, e, ih]

/-! ### The states between commands -/

theorem responses_legal_append {s : State} {r : Response} (h : ∀ x ∈ s.responses, x.legal) (hr : r.legal) :
    ∀ x ∈ s.responses ++ [r], x.legal := by
  intro x hx
  rcases List.mem_append.mp hx with hx | hx
  · exact h x hx
  · exact List.mem_singleton.mp hx ▸ hr

theorem answered_legal {s : State} (h : s.Legal) (v : Word) : (answered s v).Legal :=
  ⟨h.1, h.2, h.3, responses_legal_append h.4 ⟨Nat.zero_le _, by simp⟩⟩

theorem protocolFault_legal {s : State} (h : s.Legal) {k : BitVec 4} (hk : k.toNat ≤ 12) :
    (protocolFault s k).Legal :=
  ⟨h.1, h.2, h.3, responses_legal_append h.4 ⟨hk, by simp⟩⟩

theorem ended_legal {s : State} (h : s.Legal) {p : Word} {k : BitVec 4} (hk : k.toNat ≤ 9)
    (hp : p.extractLsb' 30 2 = 0#2 ∨ p.extractLsb' 30 2 = 3#2) : (ended s p k).Legal :=
  ⟨h.1, hk, hp, responses_legal_append h.4 ⟨Nat.le_trans hk (by decide), by simp⟩⟩

theorem setChk_legal {s : State} (h : s.Legal) {p : Word}
    (hp : p.extractLsb' 30 2 = 0#2 ∨ p.extractLsb' 30 2 = 3#2) : (s.setChk p).Legal := ⟨h.1, h.2, hp, h.4⟩

theorem setCks_legal {s : State} (h : s.Legal) (k : Cks) : (s.setCks k).Legal := ⟨h.1, h.2, h.3, h.4⟩

theorem setHrp_legal {s : State} (h : s.Legal) {b : Buffer 8} (hb : b.wf 83) : (s.setHrp b).Legal :=
  ⟨Memory.wf_setHrp h.1 hb, h.2, h.3, h.4⟩

theorem setSym_legal {s : State} (h : s.Legal) {b : Buffer 5} (hb : b.wf 88) : (s.setSym b).Legal :=
  ⟨Memory.wf_setSym h.1 hb, h.2, h.3, h.4⟩

theorem setStr_legal {s : State} (h : s.Legal) {b : Buffer 8} (hb : b.wf 90) : (s.setStr b).Legal :=
  ⟨Memory.wf_setStr h.1 hb, h.2, h.3, h.4⟩

theorem toReset_legal {s : State} (h : s.Legal) : s.toReset.Legal :=
  ⟨Memory.wf_reset, Nat.zero_le _, .inl (by rw [State.toReset_chk]; decide), h.4⟩

end Sys2Proof.Machine
end

