-- ==== Sys2Proof/Laws/PerInstr.lean ====
section
/-! SUPPORT. Per command: its word stands in its own row of the opcode map (30_encoding.md R73). -/

namespace Sys2Proof.Laws.EncodeInRow

/-- The word of `i` matches the mask and the pattern of the row of `i`. -/
def Statement (i : Instr) : Prop := (opcodeRow i).holds (encode i) = true

theorem nop : Statement .nop := by unfold Statement; decide

theorem rst : Statement .rst := by unfold Statement; decide

theorem pmInit : Statement .pmInit := by unfold Statement; decide

theorem pmAbs (a : Byte) : Statement (.pmAbs a) := by
  unfold Statement
  revert a
  decide

theorem pmHrpx : Statement .pmHrpx := by unfold Statement; decide

theorem ckCreate : Statement .ckCreate := by unfold Statement; decide

theorem ckVerify : Statement .ckVerify := by unfold Statement; decide

theorem encRun : Statement .encRun := by unfold Statement; decide

theorem decRun : Statement .decRun := by unfold Statement; decide

theorem clr (a : BitVec 3) : Statement (.clr a) := by
  unfold Statement
  revert a
  decide

theorem pushH (a : Byte) : Statement (.pushH a) := by
  unfold Statement
  revert a
  decide

theorem pushS (a : Byte) : Statement (.pushS a) := by
  unfold Statement
  revert a
  decide

theorem pushT (a : Byte) : Statement (.pushT a) := by
  unfold Statement
  revert a
  decide

theorem rdH (a : Byte) : Statement (.rdH a) := by
  unfold Statement
  revert a
  decide

theorem rdS (a : Byte) : Statement (.rdS a) := by
  unfold Statement
  revert a
  decide

theorem rdT (a : Byte) : Statement (.rdT a) := by
  unfold Statement
  revert a
  decide

theorem rdK (a : Byte) : Statement (.rdK a) := by
  unfold Statement
  revert a
  decide

theorem rdregStatus : Statement .rdregStatus := by unfold Statement; decide

theorem rdregChk : Statement .rdregChk := by unfold Statement; decide

theorem rdregHlen : Statement .rdregHlen := by unfold Statement; decide

theorem rdregSlen : Statement .rdregSlen := by unfold Statement; decide

theorem rdregTlen : Statement .rdregTlen := by unfold Statement; decide

end Sys2Proof.Laws.EncodeInRow
end

