-- ==== Sys2Proof/Laws/PolyMod.lean ====
section
/-! SUPPORT. The engine's small laws: folds, the shifted low part, the selected table entries, the HRP's two halves. -/

namespace Sys2Proof.Machine

@[simp] theorem absorbAll_nil (chk : Word) : absorbAll chk [] = chk := rfl

@[simp] theorem absorbAll_cons (chk v : Word) (vs : List Word) :
    absorbAll chk (v :: vs) = absorbAll (absorb chk v) vs := rfl

theorem absorbAll_append (chk : Word) (us vs : List Word) :
    absorbAll chk (us ++ vs) = absorbAll (absorbAll chk us) vs := List.foldl_append ..

/-- Bits 24:0 of the accumulator, as a mask. -/
theorem low25_eq (chk : Word) : (chk.extractLsb' 0 25).setWidth 32 = chk &&& 0x01FFFFFF#32 := by
  apply BitVec.eq_of_toNat_eq
  simp only [BitVec.toNat_setWidth, BitVec.extractLsb'_toNat, BitVec.toNat_and]
  rw [show (0x01FFFFFF#32).toNat = 2 ^ 25 - 1 from rfl, Nat.and_two_pow_sub_one_eq_mod]
  simp
  omega

theorem ite_xor (c : Bool) (t g : Word) :
    (if c = true then t ^^^ g else t) = t ^^^ (if c = true then g else 0#32) := by
  cases c <;> simp

/-- The selected entries do not depend on what they are XORed into. -/
theorem selectGen_eq_xor (top : BitVec 5) (t : Word) : selectGen top t = t ^^^ selectGen top 0#32 := by
  unfold selectGen
  simp only [List.foldl, ite_xor]
  simp
  ac_rfl

theorem toNat_high (c : Byte) : ((c >>> 5).setWidth 32 : Word).toNat = c.toNat / 32 := by revert c; decide

theorem toNat_low (c : Byte) : ((c &&& 31#8).setWidth 32 : Word).toNat = c.toNat % 32 := by revert c; decide

theorem zextSymbols_append (d e : List Symbol) : zextSymbols (d ++ e) = zextSymbols d ++ zextSymbols e := by
  simp [zextSymbols]

@[simp] theorem Cks.length_toList (k : Cks) : k.toList.length = 6 := rfl

/-- A word is below 2^30 exactly when its bits 31:30 are 0. -/
theorem toNat_lt_iff_top (v : Word) : v.toNat < 2 ^ 30 ↔ v.extractLsb' 30 2 = 0#2 := by
  rw [← BitVec.toNat_inj]
  simp [BitVec.extractLsb'_toNat, Nat.shiftRight_eq_div_pow]
  omega

end Sys2Proof.Machine
end

