-- ==== Sys2Proof/Tests/Slice0.lean ====
section
/-! SUPPORT. Tests. Words are written out from 30_encoding.md R70 to R73; expected results are the spec's own, from 95_test_vectors.md, by the id in each comment. The last part shows, for every obligation with hypotheses, values that meet them. -/

open Sys2Proof Sys2Proof.Machine

namespace Sys2Proof.Tests

-- one theorem at a time: kernel evaluations running side by side would add up their stacks
set_option Elab.async false

/-- The bytes of an ASCII text. -/
def ascii (s : String) : List Byte := s.toList.map fun c => BitVec.ofNat 8 c.toNat

/-- The reset state with the three buffers loaded. -/
def block (h : List Byte) (d : List Symbol) (t : List Byte) : State :=
  { State.reset with hrp := .ofList h, sym := .ofList d, str := .ofList t }

/-- The reset state with a text in `STR`. -/
def holding (t : String) : State := block [] [] (ascii t)

/-- One command, then a look at the next state. -/
def after {α : Type} (i : Instr) (s : State) (f : State → α) : Option α := (nextState? (exec i s)).map f

/-- One command's response. -/
def reply (i : Instr) (s : State) : Option Response := (after i s State.lastResponse).join

/-- L90 and L91 of 95_test_vectors.md 2.5 and 2.6: HRP `a`, 82 and 83 symbols `i mod 32`, and the checksum. -/
def l90 : List Byte := ascii "a1" ++ (List.range 82).map (fun i => charset (BitVec.ofNat 5 i)) ++ ascii "f2kzsf"

def l91 : List Byte := ascii "a1" ++ (List.range 83).map (fun i => charset (BitVec.ofNat 5 i)) ++ ascii "0smjds"

/-! ### Well-formedness: each check refuses an ill-formed command -/

theorem test_wf_pmAbs : Instr.wf (.pmAbs 32) = false ∧ Instr.wf (.pmAbs 31) = true := by decide

theorem test_wf_pushS : Instr.wf (.pushS 32) = false ∧ Instr.wf (.pushS 31) = true := by decide

/-! ### Decoding: words written out field by field (op, sub, arg), one for every constructor -/

theorem test_decode_system :
    decode 0b0000000000000000#16 = .ok .nop ∧ decode 0b0000000100000000#16 = .ok .rst := by decide

theorem test_decode_engine :
    decode 0b0001000000000000#16 = .ok .pmInit ∧ decode 0b0001000100010101#16 = .ok (.pmAbs 0x15) ∧
    decode 0b0001001000000000#16 = .ok .pmHrpx ∧ decode 0b0010000000000000#16 = .ok .ckCreate ∧
    decode 0b0010000100000000#16 = .ok .ckVerify := by decide

theorem test_decode_run :
    decode 0b0011000000000000#16 = .ok .encRun ∧ decode 0b0011000100000000#16 = .ok .decRun := by decide

theorem test_decode_transfer :
    decode 0b0100011000000000#16 = .ok (.clr 0b110) ∧ decode 0b0101000010100101#16 = .ok (.pushH 0xA5) ∧
    decode 0b0101000100010010#16 = .ok (.pushS 0x12) ∧ decode 0b0101001001011010#16 = .ok (.pushT 0x5A) ∧
    decode 0b0110000001010010#16 = .ok (.rdH 0x52) ∧ decode 0b0110000101010111#16 = .ok (.rdS 0x57) ∧
    decode 0b0110001001011001#16 = .ok (.rdT 0x59) ∧ decode 0b0110001100000101#16 = .ok (.rdK 5) := by decide

theorem test_decode_registers :
    decode 0b0111000000000000#16 = .ok .rdregStatus ∧ decode 0b0111000100000000#16 = .ok .rdregChk ∧
    decode 0b0111001000000000#16 = .ok .rdregHlen ∧ decode 0b0111001100000000#16 = .ok .rdregSlen ∧
    decode 0b0111010000000000#16 = .ok .rdregTlen := by decide

/-- 95_test_vectors.md 2.8, "Selects: nothing". -/
theorem test_decode_illegal :
    [0x0001#16, 0x0101#16, 0x0200#16, 0x1001#16, 0x1300#16, 0x2001#16, 0x2200#16, 0x3200#16].all
      (fun w => decodeTableWord 16 w.toNat == none) = true ∧
    [0x4800#16, 0x4701#16, 0x5300#16, 0x6400#16, 0x7500#16, 0x7001#16, 0x8000#16, 0xFFFF#16].all
      (fun w => decodeTableWord 16 w.toNat == none) = true := by decide

theorem test_rows_number : opcodeRows.length = 22 ∧ opcodeRows.Nodup := by decide

/-- The interface's word, as the very next step runs it. -/
theorem test_step_runs_fetch_word :
    decodeTableWord 16 0x111F = some (.pmAbs 31) ∧
    (nextState? (step (State.reset.withFetchWord 16 0x111F))).map State.chk = some 0x0000003F#32 := by decide

/-- A word of the host's runs as exec of the command, the word itself consumed. -/
theorem test_step_consumes_event :
    (nextState? (step (State.reset.withFetchWord 16 0x0001))).map (fun t => (t.pending, t.pflt, t.responses)) =
      some ([], true, [⟨12#4, 0#32⟩]) := by decide

/-! ### The engine -/

/-- 2.1, rows 7 to 11 and 12. -/
theorem test_absorb_generators :
    [0x02000000#32, 0x04000000#32, 0x08000000#32, 0x10000000#32, 0x20000000#32, 0x3E000000#32].map (absorb · 0#32) =
      [0x3B6A57B2#32, 0x26508E6D#32, 0x1EA119FA#32, 0x3D4233DD#32, 0x2A1462B3#32, 0x14CD914B#32] := by decide

/-- 2.1, rows 13, 15, 19, 20. -/
theorem test_absorb_corners :
    absorb 0x3FFFFFFF#32 0x1F#32 = 0x2B326EB4#32 ∧ absorb 0xFFFFFFFF#32 0#32 = 0x2B326EAB#32 ∧
    absorb 1#32 0xFFFFFFFF#32 = 0xFFFFFFDF#32 ∧ absorb 0xFFFFFFDF#32 0#32 = 0x2B326AAB#32 := by decide

/-- 2.2: `akash`, and the byte 0xFF. -/
theorem test_hrpExpand :
    hrpExpand (ascii "akash") = [3#32, 3#32, 3#32, 3#32, 3#32, 0#32, 1#32, 11#32, 1#32, 19#32, 8#32] ∧
    hrpExpand [0xFF#8] = [7#32, 0#32, 31#32] := by decide

/-- V-PM-5: `PM.INIT` restarts the accumulator. -/
theorem test_pmInit : after .pmInit (State.reset.setChk 0x3D6ADBB3#32) State.chk = some 1#32 := by decide

/-- V-PM-1 -/
theorem test_pmAbs : after (.pmAbs 31) State.reset State.chk = some 0x0000003F#32 := by decide

/-- V-PM-2 -/
theorem test_pmAbs_bad_symbol :
    reply (.pmAbs 32) State.reset = some ⟨10#4, 0#32⟩ ∧
    after (.pmAbs 32) State.reset (fun t => (t.chk, t.pflt, t.err)) = some (1#32, true, 0#4) := by decide

/-- V-PM-6: it continues from the accumulator it finds. -/
theorem test_pmHrpx :
    after .pmHrpx ((block (ascii "a") [] []).setChk 0x00008C01#32) State.chk = some 0x3D6ADBB3#32 := by decide

/-- V-PM-7 -/
theorem test_pmHrpx_too_long :
    after .pmHrpx (State.reset.setHrp ⟨List.replicate 83 0x78#8, 84#8⟩) (fun t => (t.chk, t.err)) =
      some (1#32, 9#4) := by decide +kernel

/-- V-CK-7 -/
theorem test_ckCreate :
    after .ckCreate (block (ascii "tb") [0#5, 31#5, 7#5] []) (fun t => (t.chk, t.cks.toList)) =
      some (0x276BDDBD#32, [19#5, 22#5, 23#5, 23#5, 13#5, 28#5]) := by decide +kernel

/-- V-CK-12 -/
theorem test_ckCreate_too_long :
    reply .ckCreate (State.reset.setSym ⟨List.replicate 88 0#5, 89#8⟩) = some ⟨9#4, 0#32⟩ := by decide +kernel

/-- V-CK-4 -/
theorem test_ckVerify :
    after .ckVerify (block (ascii "a") [10#5, 28#5, 25#5, 31#5, 20#5, 31#5] []) (fun t => (t.chk, t.err)) =
      some (1#32, 0#4) := by decide +kernel

/-- V-CK-6 -/
theorem test_ckVerify_fails :
    after .ckVerify (block (ascii "a") [10#5, 28#5, 25#5, 31#5, 20#5, 30#5] []) (fun t => (t.chk, t.err)) =
      some (0#32, 8#4) := by decide +kernel

/-! ### The encoder -/

/-- V-ENC-2 -/
theorem test_encRun :
    after .encRun (block (ascii "tb") [0#5, 31#5, 7#5] []) (fun t => (t.str.cells, t.str.len, t.chk)) =
      some (ascii "tb1ql8nkhhdu", 12#8, 0x276BDDBD#32) := by decide +kernel

/-- V-ENC-15 -/
theorem test_encRun_too_long :
    after .encRun (block [] (List.replicate 84 0#5) (ascii "q")) (fun t => (t.str, t.err, t.chk)) =
      some (⟨[], 0#8⟩, 9#4, 1#32) := by decide +kernel

/-! ### The decoder -/

/-- V-DEC-18: folded, `STR` kept. -/
theorem test_decRun :
    after .decRun (holding "TB1QL8NKHHDU") (fun t => (t.hrp.cells, t.sym.cells, t.str.cells)) =
      some (ascii "tb", [0#5, 31#5, 7#5], ascii "TB1QL8NKHHDU") := by decide +kernel

/-- X1: the forged string has residue 1 and is rejected. -/
theorem test_decRun_forged :
    reply .decRun (holding "a1bhx25j5") = some ⟨8#4, 0#32⟩ ∧
    after .decRun (holding "a1bhx25j5") (fun t => (t.chk, t.hrp.len, t.sym.len)) = some (1#32, 0#8, 0#8) := by
  decide +kernel

/-- V-DEC-4, 6, 9, 11, 14, 30, 31: the codes of the structural checks, in their order. -/
theorem test_decode_codes :
    [decodeString (ascii "a12uel5"), decodeString (ascii "Aa12ue l"), decodeString (ascii "Aa12uel5l")] =
      [.error .tooShort, .error .outOfRangeCharacter, .error .mixedCase] ∧
    [decodeString (ascii "pzry9x8gf2"), decodeString (ascii "12345678"), decodeString (ascii "li1dgmt3")] =
      [.error .missingSeparator, .error .emptyHRP, .error .checksumTooShort] := by decide +kernel

/-- V-DEC-29: the sentinel's high bits are visible in `CHK`. -/
theorem test_decode_sentinel : specResidue (ascii "a") (ascii "2uel5b") = 0xFFFFFFE1#32 := by decide +kernel

/-! ### Transfers and system -/

theorem test_nop : reply .nop State.reset = some ⟨0#4, 0#32⟩ := by decide

/-- P4's end: RST clears `ERR` and `PFLT`. -/
theorem test_rst :
    after .rst { holding "A12uel5l" with err := 4#4, pflt := true } (fun t => (t.err, t.pflt, t.str, t.chk)) =
      some (0#4, false, ⟨[], 0#8⟩, 1#32) := by decide

/-- V-BUF-11 -/
theorem test_clr :
    after (.clr 5) (block (ascii "abc") [1#5, 2#5] (ascii "a12uel5lq")) (fun t => (t.hrp.len, t.sym.len, t.str.len)) =
      some (0#8, 2#8, 0#8) := by decide

/-- V-BUF-1 -/
theorem test_pushH : after (.pushH 0xFF) State.reset State.hrp = some ⟨[0xFF#8], 1#8⟩ := by decide

/-- V-BUF-2 -/
theorem test_pushS : after (.pushS 31) State.reset State.sym = some ⟨[31#5], 1#8⟩ := by decide

/-- V-BUF-3 -/
theorem test_pushS_bad_symbol :
    after (.pushS 32) State.reset (fun t => (t.sym.len, t.pflt, t.err)) = some (0#8, true, 0#4) := by decide

/-- V-BUF-9: the 91st byte is counted and dropped. -/
theorem test_pushT_full :
    after (.pushT 0x73) (block [] [] (l91.take 90)) (fun t => (t.str.len, t.str.cells.length)) =
      some (91#8, 90) := by decide +kernel

/-- V-BUF-10: the counter saturates. -/
theorem test_pushT_saturates :
    after (.pushT 0x71) (State.reset.setStr ⟨List.replicate 90 0x71#8, 255#8⟩) (·.str.len) = some 255#8 := by
  decide +kernel

/-- V-BUF-7 -/
theorem test_rdH :
    reply (.rdH 82) (State.reset.setHrp ⟨List.replicate 83 0x78#8, 84#8⟩) = some ⟨0#4, 0x78#32⟩ ∧
    reply (.rdH 83) (State.reset.setHrp ⟨List.replicate 83 0x78#8, 84#8⟩) = some ⟨11#4, 0#32⟩ := by decide +kernel

/-- V-BUF-8 -/
theorem test_rdS :
    reply (.rdS 87) (State.reset.setSym ⟨List.replicate 88 0#5, 89#8⟩) = some ⟨0#4, 0#32⟩ ∧
    reply (.rdS 88) (State.reset.setSym ⟨List.replicate 88 0#5, 89#8⟩) = some ⟨11#4, 0#32⟩ := by decide +kernel

/-- P1: the third byte of `tb1ql8nkhhdu`, and the byte after the last. -/
theorem test_rdT :
    reply (.rdT 2) (holding "tb1ql8nkhhdu") = some ⟨0#4, 0x31#32⟩ ∧
    reply (.rdT 12) (holding "tb1ql8nkhhdu") = some ⟨11#4, 0#32⟩ := by decide

/-- P1 and V-BUF-6 -/
theorem test_rdK :
    reply (.rdK 1) (State.reset.setCks ⟨19#5, 22#5, 23#5, 23#5, 13#5, 28#5⟩) = some ⟨0#4, 22#32⟩ ∧
    reply (.rdK 6) State.reset = some ⟨11#4, 0#32⟩ := by decide

/-- 2.8, "STATUS composition". -/
theorem test_rdregStatus :
    reply .rdregStatus { State.reset with err := 4#4, pflt := true } = some ⟨0#4, 0x14#32⟩ ∧
    reply .rdregStatus { State.reset with err := 9#4 } = some ⟨0#4, 0x09#32⟩ := by decide

/-- 2.8 -/
theorem test_rdregChk : reply .rdregChk State.reset = some ⟨0#4, 1#32⟩ := by decide

/-- V-BUF-7: the counter, not the valid count. -/
theorem test_rdregHlen :
    reply .rdregHlen (State.reset.setHrp ⟨List.replicate 83 0x78#8, 84#8⟩) = some ⟨0#4, 84#32⟩ := by decide +kernel

/-- V-BUF-8 -/
theorem test_rdregSlen :
    reply .rdregSlen (State.reset.setSym ⟨List.replicate 88 0#5, 89#8⟩) = some ⟨0#4, 89#32⟩ := by decide +kernel

/-- V-BUF-10 -/
theorem test_rdregTlen :
    reply .rdregTlen (State.reset.setStr ⟨List.replicate 90 0x71#8, 255#8⟩) = some ⟨0#4, 255#32⟩ := by decide +kernel

/-! ### The assembler -/

/-- R79, R80 and the words of P1. -/
theorem test_assembler :
    [(assembleWords "PUSH.H 't'".toList), (assembleWords "PUSH.S 31 ; last".toList),
      (assembleWords "RD.T 0x0C".toList), (assembleWords "CLR.ALL".toList), (assembleWords "CLR 8".toList)] =
      [some [0x5074#16], some [0x511F#16], some [0x620C#16], some [0x4700#16], none] := by decide +kernel

/-! ### Witnesses: values that meet the hypotheses of the obligation each theorem names -/

/-- Buffers at and just past their capacities: 84, 89 and 91 pushes. -/
def overfull : State :=
  { State.reset with
    hrp := ⟨List.replicate 83 0x78#8, 84#8⟩
    sym := ⟨List.replicate 88 0#5, 89#8⟩
    str := ⟨List.replicate 90 0x71#8, 91#8⟩ }

/-- The largest operands: 83 bytes and 88 symbols. -/
def full : State := block (List.replicate 83 0x78#8) (List.replicate 88 0#5) []

/-- The longest encoding: 1 byte and 82 symbols make 90 characters. -/
def longest : State := block (ascii "a") (List.replicate 82 0#5) []

theorem witness_DecodedWordIsItsEncoding : decode 0x4700#16 = .ok (.clr 7) := by decide

theorem witness_SelectedRowIsTheOnlyRow :
    decode 0x4700#16 = .ok (.clr 7) ∧ (opcodeRow (.clr 0)).holds 0x4700#16 = true := by decide

theorem witness_IllegalWordsAreTheListedOnes :
    (∃ e, decode 0x8000#16 = .error e) ∧ ∃ e, decode 0x0001#16 = .error e := ⟨⟨_, rfl⟩, ⟨_, rfl⟩⟩

theorem witness_StepRunsTheDecodedCommand :
    (State.reset.present (.command 0x111F#16)).pending = .command 0x111F#16 :: [] ∧
    decode 0x111F#16 = .ok (.pmAbs 31) ∧
    (State.reset.present (.command 0x8000#16)).pending = .command 0x8000#16 :: [] ∧
    decode 0x8000#16 = .error .noRow ∧
    (State.reset.present .hardwareReset).pending = .hardwareReset :: [] ∧ State.reset.pending = [] := by decide

theorem witness_StepKeepsLegal :
    (State.reset.present (.command 0x3100#16)).Legal ∧
      ∃ t, step (State.reset.present (.command 0x3100#16)) = .next t :=
  ⟨⟨by decide, by decide, by decide, by decide⟩, (exec_ends .decRun State.reset).imp fun _ h => h.1⟩

theorem witness_ResetAndRstLeaveTheResetState :
    (full.present .hardwareReset).pending = .hardwareReset :: [] := by decide

/-- Each buffer at its last cell and at the first index past it. -/
theorem witness_ReadsAnswerTheCellOrIndexRange :
    Memory.wf overfull ∧
    (82#8).toNat < overfull.hrp.cells.length ∧ min overfull.hrp.len.toNat 83 ≤ (83#8).toNat ∧
    (87#8).toNat < overfull.sym.cells.length ∧ min overfull.sym.len.toNat 88 ≤ (88#8).toNat ∧
    (89#8).toNat < overfull.str.cells.length ∧ min overfull.str.len.toNat 90 ≤ (90#8).toNat ∧
    (5#8).toNat < 6 ∧ 6 ≤ (6#8).toNat := by decide +kernel

theorem witness_PushesAppendAndCount : 32 ≤ (32#8).toNat ∧ 32 ≤ (255#8).toNat := by decide

/-- The last push that stores, the first that only counts, and the three forms. -/
theorem witness_PushFrame :
    Memory.wf (block (List.replicate 82 0#8) (List.replicate 87 0#5) (List.replicate 89 0#8)) ∧ Memory.wf overfull ∧
    (∃ t, exec (.pushH 1) overfull = .next t) ∧ (∃ t, exec (.pushS ((1#5).setWidth 8)) overfull = .next t) ∧
    (∃ t, exec (.pushT 1) overfull = .next t) ∧ 0 ≠ overfull.hrp.len.toNat ∧ 0 ≠ overfull.sym.len.toNat ∧
    0 ≠ overfull.str.len.toNat :=
  ⟨by decide +kernel, by decide +kernel, (exec_ends _ _).imp fun _ h => h.1, (exec_ends _ _).imp fun _ h => h.1,
    (exec_ends _ _).imp fun _ h => h.1, by decide, by decide, by decide⟩

theorem witness_HrpExpandElements : 0 < (ascii "tb").length ∧ 1 < (ascii "tb").length ∧ 2#32 ∈ hrpExpand (ascii "tb") := by
  decide

theorem witness_PmInitAndPmAbs : 32 ≤ (32#8).toNat ∧ 32 ≤ (255#8).toNat := by decide

theorem witness_PmHrpxAbsorbsTheExpandedHrp :
    Memory.wf full ∧ full.hrp.len.toNat ≤ 83 ∧ 83 < overfull.hrp.len.toNat := by decide +kernel

theorem witness_CkCreateWritesTheChecksum :
    Memory.wf full ∧ full.hrp.len.toNat ≤ 83 ∧ full.sym.len.toNat ≤ 88 ∧ 83 < overfull.hrp.len.toNat ∧
    88 < overfull.sym.len.toNat := by decide +kernel

/-- V-CK-4 has residue 1, V-CK-5 has not. -/
theorem witness_CkVerifyTestsTheResidue :
    Memory.wf (block (ascii "a") [10#5, 28#5, 25#5, 31#5, 20#5, 31#5] []) ∧
    polyMod (verifyValues (ascii "a") [10#5, 28#5, 25#5, 31#5, 20#5, 31#5]) = 1#32 ∧
    Memory.wf (block (ascii "a") [] []) ∧ polyMod (verifyValues (ascii "a") []) ≠ 1#32 ∧
    83 < overfull.hrp.len.toNat ∧ 88 < overfull.sym.len.toNat := by decide +kernel

/-- The third clause: V-DEC-29. -/
theorem witness_AccumulatorStaysBelowTwoToThirty :
    (∀ v ∈ [0#32, 31#32, 0x3FFFFFFF#32], v.toNat < 2 ^ 30) ∧ (holding "a12uel5b").chk.toNat < 2 ^ 30 ∧
    2 ^ 30 ≤ (0xFFFFFFE1#32).toNat ∧ after .decRun (holding "a12uel5b") State.chk = some 0xFFFFFFE1#32 :=
  ⟨by simp, by decide, by decide, by decide +kernel⟩

theorem witness_OneChangedValueChangesPolyMod :
    (0#32 : Word) ≠ 0x3FFFFFFF#32 ∧ ((0#32 : Word) ^^^ 0x3FFFFFFF#32).toNat < 2 ^ 30 := by decide

theorem witness_StepwisePolyModEqualsTheCommands :
    Memory.wf full ∧ full.hrp.len.toNat ≤ 83 ∧ full.sym.len.toNat ≤ 88 := by decide +kernel

theorem witness_AbsorbCounts :
    (ascii "a12uel5l").length = 8 ∧
    validate 8 (ascii "a12uel5l") = .ok ⟨ascii "a", [some 10, some 28, some 25, some 31, some 20, some 31]⟩ := by
  decide +kernel

theorem witness_CharsetAndRevAreInverse : rev 0x71#7 = some 0#5 ∧ rev 0x6C#7 = some 31#5 := by decide

theorem witness_EncRunWritesTheEncodedString :
    Memory.wf longest ∧ longest.hrp.len.toNat + longest.sym.len.toNat + 7 = 90 ∧
    90 < (block (ascii "a") (List.replicate 83 0#5) []).hrp.len.toNat
      + (block (ascii "a") (List.replicate 83 0#5) []).sym.len.toNat + 7 := by decide +kernel

theorem witness_EncodedFrameLayout :
    Memory.wf longest ∧ longest.hrp.len.toNat + longest.sym.len.toNat + 7 ≤ 90 ∧ 0 < longest.hrp.len.toNat ∧
    81 < longest.sym.len.toNat := by decide +kernel

/-- Lengths: 91, 7, and 8 and 90 for the rest (V-DEC-15, 4, 33, 38). -/
theorem witness_DecRunReportsTheFirstDefect_lengths :
    Memory.wf overfull ∧ 90 < overfull.str.len.toNat ∧ Memory.wf (holding "a12uel5") ∧
    (holding "a12uel5").str.len.toNat < 8 ∧ 8 ≤ (holding "a12uel5l").str.len.toNat ∧
    (block [] [] l90).str.len.toNat = 90 := by decide +kernel

/-- Characters: 0x20 and 0x7F are out of range, 0x21 and 0x7E are not (V-DEC-6, 7, 26). -/
theorem witness_DecRunReportsTheFirstDefect_characters :
    ¬ AllInRange (ascii "a12uel5 ") ∧ ¬ AllInRange (ascii "a12uel5" ++ [0x7F#8]) ∧ AllInRange (ascii "!1wctc0x") ∧
    AllInRange (ascii "~1qszm75") ∧ HasUpper (ascii "A12uel5l") ∧ HasLower (ascii "A12uel5l") ∧
    AllInRange (ascii "A12uel5l") ∧ ¬ (HasUpper (ascii "A12UEL5L") ∧ HasLower (ascii "A12UEL5L")) := by
  decide +kernel

/-- Structure: V-DEC-9, V-DEC-12 and V-DEC-14, the last one with five characters after its separator. -/
theorem witness_DecRunReportsTheFirstDefect_structure :
    0x31#8 ∉ ascii "pzry9x8gf2" ∧ SplitsAs (ascii "12345678") [] (ascii "2345678") ∧
    SplitsAs (ascii "li1dgmt3") (ascii "li") (ascii "dgmt3") ∧ (ascii "dgmt3").length < 6 ∧
    AllInRange (ascii "li1dgmt3") ∧ ¬ (HasUpper (ascii "li1dgmt3") ∧ HasLower (ascii "li1dgmt3")) := by
  decide +kernel

/-- V-DEC-5 (residue not 1), X1 (residue 1, a character outside the alphabet), V-DEC-1 and V-DEC-37 (accepted). -/
theorem witness_DecRunVerifiesAndReturns :
    SplitsAs (ascii "a12uel5m") (ascii "a") (ascii "2uel5m") ∧ specResidue (ascii "a") (ascii "2uel5m") ≠ 1#32 ∧
    SplitsAs (ascii "a1bhx25j5") (ascii "a") (ascii "bhx25j5") ∧
    specResidue (ascii "a") (ascii "bhx25j5") = 1#32 ∧ (∃ x ∈ ascii "bhx25j5", foldCase x ∉ charsetTable) ∧
    SplitsAs (ascii "a12uel5l") (ascii "a") (ascii "2uel5l") ∧ specResidue (ascii "a") (ascii "2uel5l") = 1#32 ∧
    (∀ x ∈ ascii "2uel5l", foldCase x ∈ charsetTable) ∧ (ascii "2uel5l").length = 6 ∧
    l90.all inRange = true ∧ SplitsAs l90 (ascii "a") (l90.drop 2) ∧
    specResidue (ascii "a") (l90.drop 2) = 1#32 := by decide +kernel

theorem witness_DecRunIsTheFunctionDecode :
    Memory.wf (block [] [] l90) ∧ (block [] [] l90).str.len.toNat ≤ 90 ∧ Memory.wf overfull ∧
    90 < overfull.str.len.toNat := by decide +kernel

theorem witness_DecRunAcceptsExactlyTheEncodings :
    Memory.wf (holding "TB1QL8NKHHDU") ∧
    (ascii "TB1QL8NKHHDU").map foldCase = encodeString (ascii "tb") [0#5, 31#5, 7#5] := by decide +kernel

theorem witness_EncodeThenDecodeReturnsTheOperands :
    Memory.wf longest ∧ 1 ≤ longest.hrp.len.toNat ∧ longest.hrp.len.toNat + longest.sym.len.toNat + 7 ≤ 90 ∧
    (∀ x ∈ longest.hrp.cells, 33 ≤ x.toNat ∧ x.toNat ≤ 126 ∧ ¬ (0x41 ≤ x.toNat ∧ x.toNat ≤ 0x5A)) := by
  decide +kernel

theorem witness_UpperCaseCopyDecodesAlike :
    decodeString (ascii "tb1ql8nkhhdu") = .ok (ascii "tb", [0#5, 31#5, 7#5]) := by decide +kernel

/-- V-DEC-21: `q` to `p`; V-DEC-29: `l` to `b`, outside the alphabet. -/
theorem witness_OneChangedDataCharacterIsDetected :
    decodeString (ascii "tb1" ++ 0x71#8 :: ascii "l8nkhhdu") = .ok (ascii "tb", [0#5, 31#5, 7#5]) ∧
    ¬ HasUpper (ascii "tb1" ++ 0x71#8 :: ascii "l8nkhhdu") ∧ 0x31#8 ∈ ascii "tb1" ∧ 0x31#8 ∉ ascii "l8nkhhdu" ∧
    decodeString (ascii "a12uel5" ++ 0x6C#8 :: []) = .ok (ascii "a", []) ∧
    (0x62#8 ≠ 0x6C#8 ∧ 33 ≤ (0x62#8).toNat ∧ (0x62#8).toNat ≤ 126) := by decide +kernel

/-- V-DEC-23: `b` to `c`, the same high bits; and `b` to `"`, the same low bits. -/
theorem witness_OneChangedHrpCharacterIsDetected :
    decodeString (ascii "t" ++ 0x62#8 :: ascii "1ql8nkhhdu") = .ok (ascii "tb", [0#5, 31#5, 7#5]) ∧
    ¬ HasUpper (ascii "t" ++ 0x62#8 :: ascii "1ql8nkhhdu") ∧ 0x31#8 ∈ ascii "1ql8nkhhdu" ∧
    (0x62#8).toNat / 32 = (0x63#8).toNat / 32 ∧ (0x62#8).toNat % 32 = (0x22#8).toNat % 32 ∧
    33 ≤ (0x22#8).toNat := by decide +kernel

/-- An operation, RST, and a word that is neither. -/
theorem witness_ErrHoldsTheLastOperationsCode :
    (∃ t, execWord 0x3100#16 State.reset = .next t) ∧ decode 0x3100#16 = .ok .decRun ∧
    (∃ t, execWord 0x0100#16 State.reset = .next t) ∧ decode 0x0100#16 = .ok .rst ∧
    (∃ t, execWord 0x5061#16 State.reset = .next t) ∧ decode 0x5061#16 = .ok (.pushH 0x61) := by
  have run : ∀ (w : CmdWord) (i : Instr), decode w = .ok i → ∃ t, execWord w State.reset = .next t :=
    fun w i h => (execWord_ok h State.reset).symm ▸ (exec_ends i _).imp fun _ e => e.1
  exact ⟨run _ .decRun (by decide), by decide, run _ .rst (by decide), by decide, run _ (.pushH 0x61) (by decide),
    by decide⟩

/-- Each of the three codes, and the two resets. -/
theorem witness_PfltIsStickyUntilReset :
    execWord 0x5120#16 State.reset = .next (protocolFault State.reset 10#4) ∧
    execWord 0x6000#16 State.reset = .next (protocolFault State.reset 11#4) ∧
    execWord 0x8000#16 State.reset = .next (protocolFault State.reset 12#4) ∧
    (∃ t, execWord 0x0100#16 (protocolFault State.reset 12#4) = .next t) ∧
    ∃ t, step ((protocolFault State.reset 12#4).present .hardwareReset) = .next t :=
  ⟨rfl, rfl, rfl, ⟨_, rfl⟩, ⟨_, rfl⟩⟩

/-- A failure of each row of R186's table. -/
theorem witness_FailureWritesOnlyItsRow :
    reply .decRun (holding "a12uel5") = some ⟨1#4, 0#32⟩ ∧ reply .decRun (holding "a12uel5m") = some ⟨8#4, 0#32⟩ ∧
    reply .ckVerify State.reset = some ⟨8#4, 0#32⟩ ∧ reply .ckVerify overfull = some ⟨9#4, 0#32⟩ ∧
    reply .ckCreate overfull = some ⟨9#4, 0#32⟩ ∧ reply .pmHrpx overfull = some ⟨9#4, 0#32⟩ ∧
    reply .encRun overfull = some ⟨9#4, 0#32⟩ ∧ reply (.pmAbs 32) State.reset = some ⟨10#4, 0#32⟩ ∧
    reply (.pushS 32) State.reset = some ⟨10#4, 0#32⟩ ∧ reply (.rdH 0) State.reset = some ⟨11#4, 0#32⟩ ∧
    reply (.rdS 0) State.reset = some ⟨11#4, 0#32⟩ ∧ reply (.rdT 0) State.reset = some ⟨11#4, 0#32⟩ ∧
    reply (.rdK 6) State.reset = some ⟨11#4, 0#32⟩ ∧ decode 0x8000#16 = .error .noRow ∧
    Memory.wf overfull ∧ Memory.wf State.reset := by decide +kernel

theorem witness_EveryWordGetsOneResponse :
    reply .rdregChk State.reset = some ⟨0#4, 1#32⟩ ∧ reply (.pmAbs 32) State.reset = some ⟨10#4, 0#32⟩ := by decide

theorem witness_OnlyTheseCommandsWrite : ∃ t, exec .encRun longest = .next t := (exec_ends _ _).imp fun _ h => h.1

theorem witness_StoringNothingFrame :
    storesNothing .ckVerify = true ∧ (∃ t, exec .ckVerify full = .next t) ∧ storesNothing (.rdK 0) = true ∧
    isOperation (.rdK 0) = false ∧ isRead (.rdK 0) = true ∧ ∃ t, exec (.rdK 0) full = .next t :=
  ⟨rfl, (exec_ends _ _).imp fun _ h => h.1, rfl, rfl, rfl, (exec_ends _ _).imp fun _ h => h.1⟩

theorem witness_RunCommandsKeepTheirOperands :
    (∃ t, exec .encRun longest = .next t) ∧ ∃ t, exec .decRun (holding "a12uel5l") = .next t :=
  ⟨(exec_ends _ _).imp fun _ h => h.1, (exec_ends _ _).imp fun _ h => h.1⟩

/-- Two states with one HRP and one payload, and two with one string, that differ elsewhere. -/
theorem witness_OperationsDependOnTheirOperandsOnly :
    longest ≠ { longest with chk := 7#32, pflt := true } ∧
    longest.hrpBytes = State.hrpBytes { longest with chk := 7#32, pflt := true } ∧
    longest.symbols = State.symbols { longest with chk := 7#32, pflt := true } ∧
    holding "a12uel5l" ≠ block (ascii "x") [1#5] (ascii "a12uel5l") ∧
    (holding "a12uel5l").strBytes = (block (ascii "x") [1#5] (ascii "a12uel5l")).strBytes := by decide +kernel

theorem witness_RepeatedOperationRepeats :
    ∃ t r, exec .decRun (holding "a12uel5m") = .next t ∧ t.responses = (holding "a12uel5m").responses ++ [r] := by
  obtain ⟨t, h, e⟩ := exec_ends .decRun (holding "a12uel5m")
  cases e with
  | answer _ _ _ op _ _ => cases op
  | reset rst => cases rst
  | fault _ _ op _ => cases op
  | operation _ k _ _ _ responses _ _ => exact ⟨t, ⟨k, 0#32⟩, h, responses⟩

end Sys2Proof.Tests
end

section
/-! PROOFS. One step (00_scope.md R11): what it does with each kind of host event, and that it always answers a next
state. -/

namespace Sys2Proof.Machine

/-! ### What one step does, per host event -/

theorem takeEvent_of_pending_nil {s : State} (h : s.pending = []) : s.takeEvent = none := by
  simp [State.takeEvent, h]

theorem takeEvent_of_pending_cons {s : State} {e : HostEvent} {rest : List HostEvent} (h : s.pending = e :: rest) :
    s.takeEvent = some (e, { s with pending := rest }) := by
  simp [State.takeEvent, h]

theorem step_of_pending_nil {s : State} (h : s.pending = []) : step s = .next s := by
  simp [step, takeEvent_of_pending_nil h, idle]

theorem step_of_pending_cons {s : State} {e : HostEvent} {rest : List HostEvent} (h : s.pending = e :: rest) :
    step s = handleEvent e { s with pending := rest } := by
  simp [step, takeEvent_of_pending_cons h]

theorem step_of_command {s : State} {w : CmdWord} {rest : List HostEvent} (h : s.pending = .command w :: rest) :
    step s = execWord w { s with pending := rest } :=
  step_of_pending_cons h

theorem step_of_hardwareReset {s : State} {rest : List HostEvent} (h : s.pending = .hardwareReset :: rest) :
    step s = .next { State.reset with pending := rest, responses := s.responses } :=
  step_of_pending_cons h

/-! ### Every event ends in a next state -/

/-- R11: every one of the 65,536 words has a result in every state, the illegal ones included. -/
theorem exists_execWord_eq_next (w : CmdWord) (s : State) : ∃ t, execWord w s = .next t := by
  cases h : decode w with
  | ok i =>
    obtain ⟨t, ht, -⟩ := exec_ends i s
    exact ⟨t, (execWord_ok h s).trans ht⟩
  | error e => exact ⟨_, execWord_error h s⟩

theorem exists_handleEvent_eq_next (e : HostEvent) (s : State) : ∃ t, handleEvent e s = .next t := by
  cases e with
  | command w => exact exists_execWord_eq_next w s
  | hardwareReset => exact ⟨s.toReset, rfl⟩

/-! ### The obligations -/

/-- Settles O8: with nothing pending the step idles, and every host event ends in a next state. -/
theorem everyStepAnswersANextState : Obligations.EveryStepAnswersANextState := by
  intro s
  cases h : s.pending with
  | nil => exact ⟨s, step_of_pending_nil h⟩
  | cons e rest =>
    rw [step_of_pending_cons h]
    exact exists_handleEvent_eq_next e _

/-- Settles O7: one equation of `step` per host event, with `execWord` split by what the word decodes to. -/
theorem stepRunsTheDecodedCommand : Obligations.StepRunsTheDecodedCommand := by
  refine ⟨?_, ?_, fun s rest h => step_of_hardwareReset h, fun s h => step_of_pending_nil h⟩
  · intro s w rest i h hw
    rw [step_of_command h, execWord_ok hw]
  · intro s w rest e h hw
    rw [step_of_command h, execWord_error hw, protocolFault]

end Sys2Proof.Machine
end

section
/-! PROOFS. The reset state (10_state.md R38), and the tables CHARSET and REV (10_state.md R34 to R36). -/

namespace Sys2Proof.Machine

/-- Settles O10: its memory is canonical and its registers are small constants. -/
theorem resetIsLegal : Obligations.ResetIsLegal where
  memory := Memory.wf_reset
  err := Nat.zero_le _
  chkTop := .inl (by decide)
  responses := by simp [State.reset]

/-- Settles O11: both are the one operation `State.toReset`, after which RST answers. -/
theorem resetAndRstLeaveTheResetState : Obligations.ResetAndRstLeaveTheResetState :=
  ⟨fun _ _ h => step_of_hardwareReset h, fun _ => rfl⟩

/-- A 7-bit code is looked up in REV as the character with bit 7 clear. -/
theorem reverseChar_setWidth (c : BitVec 7) : reverseChar (c.setWidth 8) = rev c := by
  revert c; decide

/-- The alphabet is within the 7-bit codes. -/
theorem charset_setWidth_setWidth (s : Symbol) : ((charset s).setWidth 7).setWidth 8 = charset s := by
  revert s; decide

/-- Settles O34: REV is `reverseChar` on 7-bit codes, which maps exactly `charset s` to `s`. -/
theorem charsetAndRevAreInverse : Obligations.CharsetAndRevAreInverse := by
  refine ⟨by decide, fun s => ?_, fun c s h => ?_⟩
  · rw [← reverseChar_setWidth, charset_setWidth_setWidth, reverseChar_charset]
  · rw [← reverseChar_setWidth] at h
    exact ((reverseChar_eq_some _ _).mp h).symm

end Sys2Proof.Machine
end

section
/-! PROOFS. The invariant of the states between commands: bits 31:30 of what the engine computes (40_polymod_engine.md
R108), the lengths of what the RUN commands store, then one lemma per layer, command, word and step. -/

namespace Sys2Proof.Machine

/-! ### Bits 31:30 of the accumulator -/

/-- Bits 31 and 30 are both 0, or both 1: the clause of `State.Legal` on `CHK`. -/
def TopBitsAlike (v : Word) : Prop := v.extractLsb' 30 2 = 0#2 ∨ v.extractLsb' 30 2 = 3#2

theorem State.Legal.topBitsAlike {s : State} (h : s.Legal) : TopBitsAlike s.chk := h.chkTop

theorem selectGen_zero_top (top : BitVec 5) : (selectGen top 0#32).extractLsb' 30 2 = 0#2 := by
  revert top; decide

theorem shiftedLow_top (x : BitVec 25) : (x.setWidth 32 <<< 5).extractLsb' 30 2 = 0#2 := by
  rw [← toNat_lt_iff_top, BitVec.toNat_shiftLeft, BitVec.toNat_setWidth, Nat.shiftLeft_eq]
  have := x.isLt
  omega

/-- The shifted accumulator and the table entries are below 2^30, so bits 31:30 are those of the absorbed value. -/
theorem absorb_top (chk v : Word) : (absorb chk v).extractLsb' 30 2 = v.extractLsb' 30 2 := by
  rw [absorb, selectGen_eq_xor, BitVec.extractLsb'_xor, BitVec.extractLsb'_xor, selectGen_zero_top, shiftedLow_top]
  simp

theorem absorb_topBitsAlike (chk : Word) {v : Word} (h : TopBitsAlike v) : TopBitsAlike (absorb chk v) := by
  rwa [TopBitsAlike, absorb_top]

theorem absorbAll_topBitsAlike (vs : List Word) : ∀ chk : Word, TopBitsAlike chk → (∀ v ∈ vs, TopBitsAlike v) →
    TopBitsAlike (absorbAll chk vs) := by
  induction vs with
  | nil => exact fun _ hc _ => hc
  | cons v vs ih =>
    intro chk _ hvs
    rw [List.forall_mem_cons] at hvs
    exact ih _ (absorb_topBitsAlike chk hvs.1) hvs.2

theorem polyMod_topBitsAlike {vs : List Word} (h : ∀ v ∈ vs, TopBitsAlike v) : TopBitsAlike (polyMod vs) :=
  absorbAll_topBitsAlike vs _ (.inl (by decide)) h

/-! ### Bits 31:30 of what the commands absorb -/

theorem setWidth_topBitsAlike {w : Nat} (hw : w ≤ 30) (x : BitVec w) : TopBitsAlike (x.setWidth 32) := by
  have hx : x.toNat < 2 ^ 30 := Nat.lt_of_lt_of_le x.isLt (Nat.pow_le_pow_right (by decide) hw)
  exact .inl ((toNat_lt_iff_top _).mp (Nat.lt_of_le_of_lt (by simpa using Nat.mod_le _ _) hx))

theorem hrpExpand_topBitsAlike (h : List Byte) : ∀ v ∈ hrpExpand h, TopBitsAlike v := by
  intro v hv
  simp only [hrpExpand, List.mem_append, List.mem_map, List.mem_singleton] at hv
  rcases hv with (⟨c, -, rfl⟩ | rfl) | ⟨c, -, rfl⟩
  · exact setWidth_topBitsAlike (by decide) _
  · exact .inl (by decide)
  · exact setWidth_topBitsAlike (by decide) _

theorem zextSymbols_topBitsAlike (d : List Symbol) : ∀ v ∈ zextSymbols d, TopBitsAlike v := by
  intro v hv
  obtain ⟨x, -, rfl⟩ := List.mem_map.mp hv
  exact setWidth_topBitsAlike (by decide) x

theorem verifyValues_topBitsAlike (h : List Byte) (d : List Symbol) : ∀ v ∈ verifyValues h d, TopBitsAlike v :=
  List.forall_mem_append.mpr ⟨hrpExpand_topBitsAlike h, zextSymbols_topBitsAlike d⟩

theorem createResidue_topBitsAlike (h : List Byte) (d : List Symbol) : TopBitsAlike (createResidue h d) := by
  refine polyMod_topBitsAlike (List.forall_mem_append.mpr ⟨verifyValues_topBitsAlike h d, fun v hv => ?_⟩)
  rw [List.eq_of_mem_replicate hv]
  exact .inl (by decide)

/-- R145: a symbol has bits 31:30 clear, and `SENTINEL` has both set. -/
theorem absorbedValue_topBitsAlike (o : Option Symbol) : TopBitsAlike (absorbedValue o) := by
  cases o with
  | none => exact .inr (by decide)
  | some v => exact setWidth_topBitsAlike (by decide) v

theorem residue_topBitsAlike (sp : Split) : TopBitsAlike sp.residue := by
  refine polyMod_topBitsAlike (List.forall_mem_append.mpr ⟨hrpExpand_topBitsAlike _, fun v hv => ?_⟩)
  obtain ⟨o, -, rfl⟩ := List.mem_map.mp hv
  exact absorbedValue_topBitsAlike o

/-! ### What the RUN commands store fits its buffer -/

theorem State.hrpBytes_length_le (s : State) : s.hrpBytes.length ≤ s.hrp.len.toNat :=
  Nat.le_trans (Buffer.valid_length_le _ _) (Nat.min_le_left _ _)

theorem State.symbols_length_le (s : State) : s.symbols.length ≤ s.sym.len.toNat :=
  Nat.le_trans (Buffer.valid_length_le _ _) (Nat.min_le_left _ _)

theorem State.strBytes_length_le (s : State) : s.strBytes.length ≤ 90 :=
  Nat.le_trans (Buffer.valid_length_le _ _) (Buffer.count_le_cap _ _)

theorem encodeString_length (h : List Byte) (d : List Symbol) :
    (encodeString h d).length = h.length + d.length + 7 := by
  simp [encodeString]
  omega

theorem payload_length_le (sp : Split) : sp.payload.length ≤ sp.data.length :=
  Nat.le_trans (List.length_filterMap_le _ _) (List.length_take_le' _ _)

/-- At most 83 characters before the separator, and at most 88 after it, since at least one stands before it: the
capacities of `HRP` and `SYM`. -/
theorem validate_lengths {n : Nat} {str : List Byte} {sp : Split} (hl : str.length ≤ 90)
    (hv : validate n str = .ok sp) : sp.hrp.length ≤ 83 ∧ sp.data.length ≤ 88 := by
  obtain ⟨-, hn, -, -, h, d, ⟨rfl, -⟩, hne, hh, rfl⟩ := validate_ok hv
  have hpos := List.length_pos_iff.mpr hne
  simp only [List.length_append, List.length_cons, List.length_map] at *
  omega

/-! ### Every command keeps the invariant -/

theorem answerRead_keeps_legal {w : Nat} {s t : State} {o : Option (BitVec w)} (hs : s.Legal)
    (h : answerRead s o = .next t) : t.Legal := by
  rcases answerRead_cases s o with ⟨v, -, e⟩ | ⟨-, e⟩ <;> obtain rfl := next_injective (e.symm.trans h)
  · exact answered_legal hs _
  · exact protocolFault_legal hs (by decide)

theorem execPmAbs_keeps_legal {a : Byte} {s t : State} (hs : s.Legal) (h : execPmAbs a s = .next t) : t.Legal := by
  rcases execPmAbs_cases a s with ⟨v, -, e⟩ | ⟨-, e⟩ <;> obtain rfl := next_injective (e.symm.trans h)
  · exact answered_legal (setChk_legal hs (absorb_topBitsAlike _ (setWidth_topBitsAlike (by decide) v))) _
  · exact protocolFault_legal hs (by decide)

theorem execPmHrpx_keeps_legal {s t : State} (hs : s.Legal) (h : execPmHrpx s = .next t) : t.Legal := by
  rcases execPmHrpx_cases s with ⟨-, e⟩ | ⟨-, e⟩ <;> obtain rfl := next_injective (e.symm.trans h)
  · exact ended_legal hs (by decide) (absorbAll_topBitsAlike _ _ hs.topBitsAlike (hrpExpand_topBitsAlike _))
  · exact ended_legal hs (by decide) hs.chkTop

theorem execCkCreate_keeps_legal {s t : State} (hs : s.Legal) (h : execCkCreate s = .next t) : t.Legal := by
  rcases execCkCreate_cases s with ⟨-, -, e⟩ | ⟨-, e⟩ <;> obtain rfl := next_injective (e.symm.trans h)
  · exact setCks_legal (ended_legal hs (by decide) (createResidue_topBitsAlike _ _)) _
  · exact ended_legal hs (by decide) hs.chkTop

theorem execCkVerify_keeps_legal {s t : State} (hs : s.Legal) (h : execCkVerify s = .next t) : t.Legal := by
  rcases execCkVerify_cases s with ⟨-, -, p, k, rfl, rfl, e⟩ | ⟨-, e⟩ <;> obtain rfl := next_injective (e.symm.trans h)
  · exact ended_legal hs (by split <;> decide) (polyMod_topBitsAlike (verifyValues_topBitsAlike _ _))
  · exact ended_legal hs (by decide) hs.chkTop

theorem execEncRun_keeps_legal {s t : State} (hs : s.Legal) (h : execEncRun s = .next t) : t.Legal := by
  rcases execEncRun_cases s with ⟨hl, e⟩ | ⟨-, e⟩ <;> obtain rfl := next_injective (e.symm.trans h)
  · have hfit : (encodeString s.hrpBytes s.symbols).length ≤ 90 := by
      have := s.hrpBytes_length_le
      have := s.symbols_length_le
      rw [encodeString_length]
      omega
    exact setStr_legal (setCks_legal (ended_legal hs (by decide) (createResidue_topBitsAlike _ _)) _)
      (Buffer.ofList_wf hfit (by decide))
  · exact setStr_legal (ended_legal hs (by decide) hs.chkTop) Buffer.empty_wf

/-- A failed DEC.RUN is an operation's end that leaves `HRP` and `SYM` empty. -/
theorem decFailed_legal {s : State} (hs : s.Legal) {p : Word} {k : BitVec 4} (hk : k.toNat ≤ 9) (hp : TopBitsAlike p) :
    (decFailed s p k).Legal :=
  setSym_legal (setHrp_legal (ended_legal hs hk hp) Buffer.empty_wf) Buffer.empty_wf

theorem decAccepted_legal {s : State} (hs : s.Legal) {h : List Byte} {d : List Symbol} (hh : h.length ≤ 83)
    (hd : d.length ≤ 88) : (decAccepted s h d).Legal :=
  setSym_legal
    (setHrp_legal (ended_legal hs (p := 1#32) (k := 0#4) (by decide) (.inl (by decide)))
      (Buffer.ofList_wf hh (by decide)))
    (Buffer.ofList_wf hd (by decide))

theorem execDecRun_keeps_legal {s t : State} (hs : s.Legal) (h : execDecRun s = .next t) : t.Legal := by
  rcases execDecRun_cases s with ⟨c, hv, e⟩ | ⟨sp, -, -, e⟩ | ⟨sp, hv, -, e⟩ <;>
    obtain rfl := next_injective (e.symm.trans h)
  · exact decFailed_legal hs (Code.operation_bits_le (validate_error hv).2.2) hs.topBitsAlike
  · exact decFailed_legal hs (by decide) (residue_topBitsAlike sp)
  · obtain ⟨hh, hd⟩ := validate_lengths s.strBytes_length_le hv
    exact decAccepted_legal hs hh (Nat.le_trans (payload_length_le sp) hd)

theorem execPushS_keeps_legal {a : Byte} {s t : State} (hs : s.Legal) (h : execPushS a s = .next t) : t.Legal := by
  rcases execPushS_cases a s with ⟨v, -, e⟩ | ⟨-, e⟩ <;> obtain rfl := next_injective (e.symm.trans h)
  · exact answered_legal (setSym_legal hs (Buffer.push_wf (by decide) hs.memory.2.1 v)) _
  · exact protocolFault_legal hs (by decide)

theorem execClr_keeps_legal {m : BitVec 3} {s t : State} (hs : s.Legal) (h : execClr m s = .next t) : t.Legal := by
  obtain ⟨hhrp, hsym, hstr⟩ := hs.memory
  obtain rfl := next_injective h
  exact answered_legal (setStr_legal (setSym_legal (setHrp_legal hs (Buffer.ite_wf Buffer.empty_wf hhrp))
    (Buffer.ite_wf Buffer.empty_wf hsym)) (Buffer.ite_wf Buffer.empty_wf hstr)) 0#32

theorem exec_keeps_legal {i : Instr} {s t : State} (hs : s.Legal) (h : exec i s = .next t) : t.Legal := by
  have answers {u : State} {v : Word} (hu : u.Legal) (e : u.answer v = .next t) : t.Legal :=
    next_injective e ▸ answered_legal hu v
  cases i with
  | nop => exact answers hs h
  | rst => exact answers (toReset_legal hs) h
  | pmInit => exact answers (setChk_legal hs (.inl (by decide))) h
  | pmAbs a => exact execPmAbs_keeps_legal hs h
  | pmHrpx => exact execPmHrpx_keeps_legal hs h
  | ckCreate => exact execCkCreate_keeps_legal hs h
  | ckVerify => exact execCkVerify_keeps_legal hs h
  | encRun => exact execEncRun_keeps_legal hs h
  | decRun => exact execDecRun_keeps_legal hs h
  | clr m => exact execClr_keeps_legal hs h
  | pushH b => exact answers (setHrp_legal hs (Buffer.push_wf (by decide) hs.memory.1 b)) h
  | pushS a => exact execPushS_keeps_legal hs h
  | pushT b => exact answers (setStr_legal hs (Buffer.push_wf (by decide) hs.memory.2.2 b)) h
  | rdH a | rdS a | rdT a | rdK a => exact answerRead_keeps_legal hs h
  | rdregStatus | rdregChk | rdregHlen | rdregSlen | rdregTlen => exact answers hs h

theorem execWord_keeps_legal {w : CmdWord} {s t : State} (hs : s.Legal) (h : execWord w s = .next t) : t.Legal := by
  cases hw : decode w with
  | ok i => exact exec_keeps_legal hs ((execWord_ok hw s).symm.trans h)
  | error e => exact next_injective ((execWord_error hw s).symm.trans h) ▸ protocolFault_legal hs (by decide)

theorem handleEvent_keeps_legal {e : HostEvent} {s t : State} (hs : s.Legal) (h : handleEvent e s = .next t) :
    t.Legal := by
  cases e with
  | command w => exact execWord_keeps_legal hs h
  | hardwareReset => exact next_injective h ▸ toReset_legal hs

/-- Taking an event changes nothing the invariant speaks of. -/
theorem withPending_legal {s : State} (hs : s.Legal) (rest : List HostEvent) :
    State.Legal { s with pending := rest } := ⟨hs.memory, hs.err, hs.chkTop, hs.responses⟩

/-- Settles O9: the step idles, or takes an event, whose handling keeps the invariant. -/
theorem stepKeepsLegal : Obligations.StepKeepsLegal := by
  intro s t hs h
  cases hp : s.pending with
  | nil => exact next_injective ((step_of_pending_nil hp).symm.trans h) ▸ hs
  | cons e rest => exact handleEvent_keeps_legal (withPending_legal hs rest) ((step_of_pending_cons hp).symm.trans h)

end Sys2Proof.Machine
end

section
/-! PROOFS. The pushes (43_buffer_and_system.md R163 to R165): what one leaves unchanged, and what a load of any length
leaves in its buffer (10_state.md R26, 30_encoding.md R80). -/

namespace Sys2Proof.Machine

/-! ### One push -/

theorem exec_pushH (b : Byte) (s : State) :
    exec (.pushH b) s = .next (answered (s.setHrp (s.hrp.push 83 b)) 0#32) := rfl

theorem exec_pushS_symbol (v : Symbol) (s : State) :
    exec (.pushS (symbolArg v)) s = .next (answered (s.setSym (s.sym.push 88 v)) 0#32) := by
  simp only [exec, execPushS, symbolArg, symbolOperand_of_symbol]
  rfl

theorem exec_pushT (b : Byte) (s : State) :
    exec (.pushT b) s = .next (answered (s.setStr (s.str.push 90 b)) 0#32) := rfl

/-- Settles O17: `Buffer.push_read` for the buffer pushed to, and nothing else of the state is written. -/
theorem pushFrame : Obligations.PushFrame := by
  rintro s t ⟨hhrp, hsym, hstr⟩
  refine ⟨fun b h => ?_, fun v h => ?_, fun b h => ?_⟩
  · obtain ⟨hother, hnamed⟩ := Buffer.push_read (by decide) hhrp b
    obtain rfl := next_injective ((exec_pushH b s).symm.trans h)
    exact ⟨hother, hnamed, fun _ => rfl, fun _ => rfl, rfl, rfl, rfl, rfl, rfl, rfl⟩
  · obtain ⟨hother, hnamed⟩ := Buffer.push_read (by decide) hsym v
    obtain rfl := next_injective ((exec_pushS_symbol v s).symm.trans h)
    exact ⟨hother, hnamed, fun _ => rfl, fun _ => rfl, rfl, rfl, rfl, rfl, rfl, rfl⟩
  · obtain ⟨hother, hnamed⟩ := Buffer.push_read (by decide) hstr b
    obtain rfl := next_injective ((exec_pushT b s).symm.trans h)
    exact ⟨hother, hnamed, fun _ => rfl, fun _ => rfl, rfl, rfl, rfl, rfl, rfl, rfl⟩

/-! ### Loads -/

/-- The buffer after the pushes of `l` into an empty one (R26): its first elements up to the capacity, and the count of
all of them up to 255. -/
def Buffer.loaded {w : Nat} (cap : Nat) (l : List (BitVec w)) : Buffer w :=
  ⟨l.take cap, BitVec.ofNat 8 (min l.length 255)⟩

theorem Buffer.loaded_nil {w : Nat} (cap : Nat) : Buffer.loaded cap ([] : List (BitVec w)) = .empty := by
  simp [Buffer.loaded, Buffer.empty]

theorem Buffer.loaded_len {w : Nat} (cap : Nat) (l : List (BitVec w)) :
    (Buffer.loaded cap l).len.toNat = min l.length 255 := by
  simp only [Buffer.loaded, BitVec.toNat_ofNat]
  omega

/-- The counter of a loaded buffer is below the capacity exactly while every element pushed has been stored. -/
theorem Buffer.loaded_push {w cap : Nat} (hc : cap ≤ 255) (l : List (BitVec w)) (v : BitVec w) :
    (Buffer.loaded cap l).push cap v = Buffer.loaded cap (l ++ [v]) := by
  have hcells : ((Buffer.loaded cap l).push cap v).cells = (l ++ [v]).take cap := by
    rw [Buffer.push_cells, Buffer.loaded_len, Buffer.loaded]
    by_cases hl : l.length < cap
    · rw [if_pos (by omega), List.take_of_length_le hl.le, List.take_of_length_le (by simpa using hl)]
    · rw [if_neg (by omega), List.take_append_of_le_length (not_lt.mp hl)]
  have hlen : ((Buffer.loaded cap l).push cap v).len = BitVec.ofNat 8 (min (l ++ [v]).length 255) := by
    apply BitVec.eq_of_toNat_eq
    simp only [Buffer.push_len, Buffer.loaded_len, List.length_append, List.length_singleton, BitVec.toNat_ofNat]
    omega
  exact congrArg₂ Buffer.mk hcells hlen

section
variable {w cap : Nat} {push : BitVec w → Instr} {put : Buffer w → List Response → State}
  (hpush : ∀ v b rs, exec (push v) (put b rs) = .next (put (b.push cap v) (rs ++ [⟨0#4, 0#32⟩])))
include hpush

/-- A run of pushes onto a loaded buffer; `put` says which buffer of which state. -/
theorem runInstrs_pushes (hc : cap ≤ 255) (l : List (BitVec w)) : ∀ (done : List (BitVec w)) (rs : List Response),
    runInstrs (l.map push) (put (.loaded cap done) rs) =
      .next (put (.loaded cap (done ++ l)) (rs ++ List.replicate l.length ⟨0#4, 0#32⟩)) := by
  induction l with
  | nil => intro done rs; simp [runInstrs]
  | cons v l ih =>
    intro done rs
    simp only [List.map_cons, runInstrs, hpush, Buffer.loaded_push hc, ih]
    simp [List.replicate_succ]

/-- A load: a CLR that empties the buffer, then the pushes. -/
theorem runInstrs_load (hc : cap ≤ 255) {clr : Instr} {s : State}
    (hclr : exec clr s = .next (put .empty (s.responses ++ [⟨0#4, 0#32⟩]))) (l : List (BitVec w)) :
    runInstrs (clr :: l.map push) s =
      .next (put (.loaded cap l) (s.responses ++ List.replicate (l.length + 1) ⟨0#4, 0#32⟩)) := by
  have hrun := runInstrs_pushes hpush hc l [] (s.responses ++ [⟨0#4, 0#32⟩])
  rw [Buffer.loaded_nil] at hrun
  simp only [runInstrs, hclr, hrun]
  simp [List.replicate_succ]

end

/-- Settles O18: each load is `runInstrs_load` for its buffer. -/
theorem loadsFillTheBuffer : Obligations.LoadsFillTheBuffer := by
  intro s
  refine ⟨fun text => ?_, fun d => ?_, fun text => ?_⟩
  · exact runInstrs_load (cap := 83) (put := fun b rs => { s with hrp := b, responses := rs })
      (fun v b rs => exec_pushH v _) (by decide) rfl text
  · exact runInstrs_load (cap := 88) (put := fun b rs => { s with sym := b, responses := rs })
      (fun v b rs => exec_pushS_symbol v _) (by decide) rfl d
  · exact runInstrs_load (cap := 90) (put := fun b rs => { s with str := b, responses := rs })
      (fun v b rs => exec_pushT v _) (by decide) rfl text

end Sys2Proof.Machine
end

section
/-! PROOFS. The status register (10_state.md R28, R29): what a word writes of `ERR` and `PFLT`, by what it ends in. -/

namespace Sys2Proof.Machine

/-- What a word can end in: what its command can, or the protocol fault of an illegal word (R75). -/
theorem ends_of_execWord {w : CmdWord} {s t : State} (h : execWord w s = .next t) :
    (∃ i, decode w = .ok i ∧ Ends i s t) ∨ ((∃ e, decode w = .error e) ∧ t = protocolFault s 12#4) := by
  cases hw : decode w with
  | ok i => exact .inl ⟨i, rfl, ends_of_exec ((execWord_ok hw s).symm.trans h)⟩
  | error e => exact .inr ⟨⟨e, rfl⟩, next_injective (h.symm.trans (execWord_error hw s))⟩

/-- R28 for one command. -/
theorem Ends.err {i : Instr} {s t : State} (h : Ends i s t) : ∃ r, t.responses = s.responses ++ [r] ∧
    (isOperation i = true → t.err = r.err ∧ t.err.toNat ≤ 9) ∧ (i = .rst → t.err = 0#4) ∧
    (isOperation i = false → i ≠ .rst → t.err = s.err) := by
  cases h with
  | answer u v kept op rst =>
    obtain ⟨herr, -, hresp, -⟩ := kept
    exact ⟨⟨0#4, v⟩, congrArg (· ++ _) hresp, by simp [op], by simp [rst], fun _ _ => herr⟩
  | reset rst => subst rst; exact ⟨⟨0#4, 0#32⟩, rfl, nofun, fun _ => rfl, by simp⟩
  | fault k code op rst => exact ⟨⟨k, 0#32⟩, rfl, by simp [op], by simp [rst], fun _ _ => rfl⟩
  | operation _ k code err pflt responses pending op =>
    exact ⟨⟨k, 0#32⟩, responses, fun _ => ⟨err, err ▸ code⟩, fun hi => absurd op (by simp [hi, isOperation]),
      by simp [op]⟩

/-- R29 for one command. -/
theorem Ends.pflt {i : Instr} {s t : State} (h : Ends i s t) : ∃ r, t.responses = s.responses ++ [r] ∧
    ((r.err = 10#4 ∨ r.err = 11#4 ∨ r.err = 12#4) → t.pflt = true) ∧ (i = .rst → t.pflt = false) ∧
    (i ≠ .rst → ¬ (r.err = 10#4 ∨ r.err = 11#4 ∨ r.err = 12#4) → t.pflt = s.pflt) := by
  cases h with
  | answer u v kept op rst =>
    obtain ⟨-, hpflt, hresp, -⟩ := kept
    exact ⟨⟨0#4, v⟩, congrArg (· ++ _) hresp, by simp, by simp [rst], fun _ _ => hpflt⟩
  | reset rst => exact ⟨⟨0#4, 0#32⟩, rfl, by simp, fun _ => rfl, fun hi => absurd rst hi⟩
  | fault k code op rst =>
    exact ⟨⟨k, 0#32⟩, rfl, fun _ => rfl, by simp [rst], fun _ hk => absurd (code.imp_right .inl) hk⟩
  | operation _ k code err pflt responses pending op =>
    have hk : ¬ (k = 10#4 ∨ k = 11#4 ∨ k = 12#4) := by
      rintro (rfl | rfl | rfl) <;> exact absurd code (by decide)
    exact ⟨⟨k, 0#32⟩, responses, fun h => absurd h hk, fun hi => absurd op (by simp [hi, isOperation]),
      fun _ _ => pflt⟩

/-- Settles O46: `Ends.err` for a word that selects a command; an illegal word leaves `ERR`. -/
theorem errHoldsTheLastOperationsCode : Obligations.ErrHoldsTheLastOperationsCode := by
  intro w s t h
  rcases ends_of_execWord h with ⟨i, hw, hends⟩ | ⟨⟨e, hw⟩, rfl⟩
  · obtain ⟨r, hresp, hop, hrst, hother⟩ := hends.err
    simp only [hw, Except.ok.injEq]
    exact ⟨r, hresp, by rintro _ rfl; exact hop, hrst, fun hi => hother (hi i rfl).1 (hi i rfl).2⟩
  · exact ⟨⟨12#4, 0#32⟩, rfl, by simp [hw], by simp [hw], fun _ => rfl⟩

/-- Settles O47: `Ends.pflt` for a word that selects a command; an illegal word answers 12 and sets `PFLT`. -/
theorem pfltIsStickyUntilReset : Obligations.PfltIsStickyUntilReset := by
  refine ⟨fun w s t h => ?_, fun s t rest hp h => ?_⟩
  · rcases ends_of_execWord h with ⟨i, hw, hends⟩ | ⟨⟨e, hw⟩, rfl⟩
    · obtain ⟨r, hresp, hfault, hrst, hother⟩ := hends.pflt
      simp only [hw, ne_eq, Except.ok.injEq]
      exact ⟨r, hresp, hfault, hrst, hother⟩
    · exact ⟨⟨12#4, 0#32⟩, rfl, fun _ => rfl, by simp [hw], by simp⟩
  · obtain rfl := next_injective ((step_of_hardwareReset hp).symm.trans h)
    rfl

end Sys2Proof.Machine
end

section
/-! PROOFS. The access matrix (10_state.md R40): which commands can write each register and buffer, and the frame of the
commands that store nothing. -/

namespace Sys2Proof.Machine

theorem Ends.err_access {i : Instr} {s t : State} (h : Ends i s t) :
    t.err = s.err ∨ i = .rst ∨ isOperation i = true := by
  obtain ⟨-, -, -, -, hother⟩ := h.err
  by_cases hi : i = .rst
  · exact .inr (.inl hi)
  · cases ho : isOperation i with
    | true => exact .inr (.inr rfl)
    | false => exact .inl (hother ho hi)

theorem Ends.pending_eq {i : Instr} {s t : State} (h : Ends i s t) : t.pending = s.pending := by
  cases h with
  | answer u v kept => exact kept.2.2.2
  | reset => rfl
  | fault => rfl
  | operation _ _ _ _ _ _ pending => exact pending

/-- The commands that a protocol fault can end: a symbol or an index may be out of range (R74 steps 3 and 4). -/
def ChecksOperand (i : Instr) : Prop :=
  ∃ a, i = .pmAbs a ∨ i = .pushS a ∨ i = .rdH a ∨ i = .rdS a ∨ i = .rdT a ∨ i = .rdK a

/-- The columns of R40's matrix for `CHK`, `CKS`, the buffers and `PFLT`: each is as before, or the command is one that
can write it. (`ERR`'s column is `Ends.err_access`.) -/
structure WithinAccess (i : Instr) (s t : State) : Prop where
  chk : t.chk = s.chk ∨ i = .rst ∨ i = .pmInit ∨ (∃ a, i = .pmAbs a) ∨ i = .pmHrpx ∨ i = .ckCreate ∨ i = .ckVerify ∨
    i = .encRun ∨ i = .decRun
  cks : t.cks = s.cks ∨ i = .rst ∨ i = .ckCreate ∨ i = .encRun
  hrp : t.hrp = s.hrp ∨ i = .rst ∨ i = .decRun ∨ (∃ m : BitVec 3, m.getLsbD 0 = true ∧ i = .clr m) ∨ ∃ b, i = .pushH b
  sym : t.sym = s.sym ∨ i = .rst ∨ i = .decRun ∨ (∃ m : BitVec 3, m.getLsbD 1 = true ∧ i = .clr m) ∨ ∃ a, i = .pushS a
  str : t.str = s.str ∨ i = .rst ∨ i = .encRun ∨ (∃ m : BitVec 3, m.getLsbD 2 = true ∧ i = .clr m) ∨ ∃ b, i = .pushT b
  pflt : t.pflt = s.pflt ∨ i = .rst ∨ ChecksOperand i

/-! The common ends of a command; a command that writes more replaces the columns it writes. -/

theorem answered_withinAccess (i : Instr) (s : State) (v : Word) : WithinAccess i s (answered s v) :=
  ⟨.inl rfl, .inl rfl, .inl rfl, .inl rfl, .inl rfl, .inl rfl⟩

theorem protocolFault_withinAccess {i : Instr} (hi : ChecksOperand i) (s : State) (k : BitVec 4) :
    WithinAccess i s (protocolFault s k) :=
  ⟨.inl rfl, .inl rfl, .inl rfl, .inl rfl, .inl rfl, .inr (.inr hi)⟩

theorem ended_withinAccess {i : Instr} (hi : i = .pmHrpx ∨ i = .ckCreate ∨ i = .ckVerify ∨ i = .encRun ∨ i = .decRun)
    (s : State) (p : Word) (k : BitVec 4) : WithinAccess i s (ended s p k) :=
  ⟨.inr (.inr (.inr (.inr hi))), .inl rfl, .inl rfl, .inl rfl, .inl rfl, .inl rfl⟩

/-! One lemma per command with more than one end, or with a mask. -/

theorem answerRead_withinAccess {w : Nat} {i : Instr} {s t : State} {o : Option (BitVec w)} (hi : ChecksOperand i)
    (h : answerRead s o = .next t) : WithinAccess i s t := by
  rcases answerRead_cases s o with ⟨v, -, e⟩ | ⟨-, e⟩ <;> obtain rfl := next_injective (e.symm.trans h)
  · exact answered_withinAccess _ _ _
  · exact protocolFault_withinAccess hi _ _

theorem execPmAbs_withinAccess {a : Byte} {s t : State} (h : execPmAbs a s = .next t) :
    WithinAccess (.pmAbs a) s t := by
  rcases execPmAbs_cases a s with ⟨v, -, e⟩ | ⟨-, e⟩ <;> obtain rfl := next_injective (e.symm.trans h)
  · exact { answered_withinAccess (.pmAbs a) s 0#32 with chk := .inr (by simp) }
  · exact protocolFault_withinAccess ⟨a, by simp⟩ _ _

theorem execPushS_withinAccess {a : Byte} {s t : State} (h : execPushS a s = .next t) :
    WithinAccess (.pushS a) s t := by
  rcases execPushS_cases a s with ⟨v, -, e⟩ | ⟨-, e⟩ <;> obtain rfl := next_injective (e.symm.trans h)
  · exact { answered_withinAccess (.pushS a) s 0#32 with sym := .inr (by simp) }
  · exact protocolFault_withinAccess ⟨a, by simp⟩ _ _

theorem execPmHrpx_withinAccess {s t : State} (h : execPmHrpx s = .next t) : WithinAccess .pmHrpx s t := by
  rcases execPmHrpx_cases s with ⟨-, e⟩ | ⟨-, e⟩ <;> obtain rfl := next_injective (e.symm.trans h) <;>
    exact ended_withinAccess (by simp) _ _ _

theorem execCkCreate_withinAccess {s t : State} (h : execCkCreate s = .next t) : WithinAccess .ckCreate s t := by
  rcases execCkCreate_cases s with ⟨-, -, e⟩ | ⟨-, e⟩ <;> obtain rfl := next_injective (e.symm.trans h)
  · exact { ended_withinAccess (i := .ckCreate) (by simp) s _ 0#4 with cks := .inr (by simp) }
  · exact ended_withinAccess (by simp) _ _ _

theorem execCkVerify_withinAccess {s t : State} (h : execCkVerify s = .next t) : WithinAccess .ckVerify s t := by
  rcases execCkVerify_cases s with ⟨-, -, p, k, -, -, e⟩ | ⟨-, e⟩ <;> obtain rfl := next_injective (e.symm.trans h) <;>
    exact ended_withinAccess (by simp) _ _ _

theorem execEncRun_withinAccess {s t : State} (h : execEncRun s = .next t) : WithinAccess .encRun s t := by
  rcases execEncRun_cases s with ⟨-, e⟩ | ⟨-, e⟩ <;> obtain rfl := next_injective (e.symm.trans h)
  · exact { ended_withinAccess (i := .encRun) (by simp) s _ 0#4 with cks := .inr (by simp), str := .inr (by simp) }
  · exact { ended_withinAccess (i := .encRun) (by simp) s _ 9#4 with str := .inr (by simp) }

theorem execDecRun_withinAccess {s t : State} (h : execDecRun s = .next t) : WithinAccess .decRun s t := by
  rcases execDecRun_cases s with ⟨c, -, e⟩ | ⟨sp, -, -, e⟩ | ⟨sp, -, -, e⟩ <;>
    obtain rfl := next_injective (e.symm.trans h) <;>
    exact ⟨.inr (by simp), .inl rfl, .inr (by simp), .inr (by simp), .inl rfl, .inl rfl⟩

/-- A buffer that CLR changes is one its mask names. -/
theorem clr_keeps_or_named {w : Nat} (m : BitVec 3) (k : Nat) (b : Buffer w) :
    (if maskBit m k = true then Buffer.empty else b) = b ∨ m.getLsbD k = true := by
  by_cases hm : maskBit m k = true
  · exact .inr hm
  · exact .inl (if_neg hm)

theorem execClr_withinAccess {m : BitVec 3} {s t : State} (h : execClr m s = .next t) :
    WithinAccess (.clr m) s t := by
  obtain rfl := next_injective h
  exact { answered_withinAccess (.clr m) s 0#32 with
    hrp := (clr_keeps_or_named m 0 s.hrp).imp_right fun hm => by simp [hm]
    sym := (clr_keeps_or_named m 1 s.sym).imp_right fun hm => by simp [hm]
    str := (clr_keeps_or_named m 2 s.str).imp_right fun hm => by simp [hm] }

theorem exec_withinAccess {i : Instr} {s t : State} (h : exec i s = .next t) : WithinAccess i s t := by
  cases i with
  | nop => exact next_injective h ▸ answered_withinAccess _ s _
  | rst => exact ⟨.inr (.inl rfl), .inr (.inl rfl), .inr (.inl rfl), .inr (.inl rfl), .inr (.inl rfl), .inr (.inl rfl)⟩
  | pmInit => exact next_injective h ▸ { answered_withinAccess .pmInit s 0#32 with chk := .inr (by simp) }
  | pmAbs a => exact execPmAbs_withinAccess h
  | pmHrpx => exact execPmHrpx_withinAccess h
  | ckCreate => exact execCkCreate_withinAccess h
  | ckVerify => exact execCkVerify_withinAccess h
  | encRun => exact execEncRun_withinAccess h
  | decRun => exact execDecRun_withinAccess h
  | clr m => exact execClr_withinAccess h
  | pushH b => exact next_injective h ▸ { answered_withinAccess (.pushH b) s 0#32 with hrp := .inr (by simp) }
  | pushS a => exact execPushS_withinAccess h
  | pushT b => exact next_injective h ▸ { answered_withinAccess (.pushT b) s 0#32 with str := .inr (by simp) }
  | rdH a | rdS a | rdT a | rdK a => exact answerRead_withinAccess ⟨a, by simp⟩ h
  | rdregStatus | rdregChk | rdregHlen | rdregSlen | rdregTlen =>
    exact next_injective h ▸ answered_withinAccess _ s _

/-- Settles O50: the columns of `WithinAccess`, with `ERR` and the host's events from what the command ends in. -/
theorem onlyTheseCommandsWrite : Obligations.OnlyTheseCommandsWrite := by
  intro i s t h
  obtain ⟨chk, cks, hrp, sym, str, pflt⟩ := exec_withinAccess h
  exact ⟨chk, cks, hrp, sym, str, (ends_of_exec h).err_access, pflt, (ends_of_exec h).pending_eq⟩

/-- Settles O51: none of the commands that store nothing stands in a buffer's column of the matrix. -/
theorem storingNothingFrame : Obligations.StoringNothingFrame := by
  intro i s t hi h
  obtain ⟨chk, cks, hrp, sym, str, err, -, -⟩ := onlyTheseCommandsWrite i s t h
  have hrp : t.hrp = s.hrp := hrp.resolve_right (by rintro (rfl | rfl | ⟨m, -, rfl⟩ | ⟨b, rfl⟩) <;> cases hi)
  have sym : t.sym = s.sym := sym.resolve_right (by rintro (rfl | rfl | ⟨m, -, rfl⟩ | ⟨b, rfl⟩) <;> cases hi)
  have str : t.str = s.str := str.resolve_right (by rintro (rfl | rfl | ⟨m, -, rfl⟩ | ⟨b, rfl⟩) <;> cases hi)
  rw [hrp, sym, str]
  refine ⟨fun _ => rfl, fun _ => rfl, fun _ => rfl, rfl, rfl, rfl, fun hne => cks.resolve_right ?_,
    fun ho => err.resolve_right ?_, fun hr => chk.resolve_right ?_⟩
  · rintro (rfl | rfl | rfl)
    · cases hi
    · exact hne rfl
    · cases hi
  · rintro (rfl | he)
    · cases hi
    · rw [ho] at he
      cases he
  · rintro (rfl | rfl | ⟨a, rfl⟩ | rfl | rfl | rfl | rfl | rfl) <;> simp [isRead] at hr

end Sys2Proof.Machine
end

section
/-! PROOFS. History independence (10_state.md R41): the response and the stored results of CK.CREATE, CK.VERIFY, ENC.RUN
and DEC.RUN as functions of the operand buffers alone. -/

namespace Sys2Proof.Machine

/-! ### What each operation answers, from its operands' counters and valid contents -/

/-- CK.CREATE's code (R113). -/
def createCode (hlen slen : BitVec 8) : BitVec 4 := if 83 < hlen.toNat ∨ 88 < slen.toNat then 9#4 else 0#4

/-- CK.VERIFY's code (R114). -/
def verifyCode (hlen slen : BitVec 8) (h : List Byte) (d : List Symbol) : BitVec 4 :=
  if 83 < hlen.toNat ∨ 88 < slen.toNat then 9#4
  else if polyMod (verifyValues h d) = 1#32 then 0#4 else 8#4

/-- ENC.RUN's code (R131). -/
def encCode (hlen slen : BitVec 8) : BitVec 4 := if 90 < hlen.toNat + slen.toNat + 7 then 9#4 else 0#4

/-- What ENC.RUN leaves in `STR` (R131). -/
def encStr (hlen slen : BitVec 8) (h : List Byte) (d : List Symbol) : Buffer 8 :=
  if 90 < hlen.toNat + slen.toNat + 7 then .empty else .ofList (encodeString h d)

/-- DEC.RUN's code, and what it leaves in `HRP` and `SYM` (R140, R146, R147). -/
def decResult (tlen : BitVec 8) (str : List Byte) : BitVec 4 × Buffer 8 × Buffer 5 :=
  match validate tlen.toNat str with
  | .error c => (c.bits, .empty, .empty)
  | .ok sp => if sp.rejected = true then (8#4, .empty, .empty) else (0#4, .ofList sp.hrp, .ofList sp.payload)

theorem exec_ckCreate_code (s : State) : ∃ t, exec .ckCreate s = .next t ∧
    t.responses = s.responses ++ [⟨createCode s.hrp.len s.sym.len, 0#32⟩] := by
  rcases execCkCreate_cases s with ⟨hh, hd, e⟩ | ⟨hl, e⟩
  · exact ⟨_, e, by rw [createCode, if_neg (not_or.mpr ⟨not_lt.mpr hh, not_lt.mpr hd⟩)]; rfl⟩
  · exact ⟨_, e, by rw [createCode, if_pos hl]; rfl⟩

theorem exec_ckVerify_code (s : State) : ∃ t, exec .ckVerify s = .next t ∧
    t.responses = s.responses ++ [⟨verifyCode s.hrp.len s.sym.len s.hrpBytes s.symbols, 0#32⟩] := by
  rcases execCkVerify_cases s with ⟨hh, hd, p, k, rfl, rfl, e⟩ | ⟨hl, e⟩
  · exact ⟨_, e, by rw [verifyCode, if_neg (not_or.mpr ⟨not_lt.mpr hh, not_lt.mpr hd⟩)]; rfl⟩
  · exact ⟨_, e, by rw [verifyCode, if_pos hl]; rfl⟩

theorem exec_encRun_code (s : State) : ∃ t, exec .encRun s = .next t ∧
    t.responses = s.responses ++ [⟨encCode s.hrp.len s.sym.len, 0#32⟩] ∧
    t.str = encStr s.hrp.len s.sym.len s.hrpBytes s.symbols := by
  rcases execEncRun_cases s with ⟨hl, e⟩ | ⟨hl, e⟩
  · exact ⟨_, e, by rw [encCode, if_neg (by omega)]; rfl, by rw [encStr, if_neg (by omega)]; rfl⟩
  · exact ⟨_, e, by rw [encCode, if_pos hl]; rfl, by rw [encStr, if_pos hl]; rfl⟩

theorem exec_decRun_result (s : State) : ∃ t, exec .decRun s = .next t ∧
    t.responses = s.responses ++ [⟨(decResult s.str.len s.strBytes).1, 0#32⟩] ∧
    (t.hrp, t.sym) = (decResult s.str.len s.strBytes).2 := by
  rcases execDecRun_cases s with ⟨c, hv, e⟩ | ⟨sp, hv, hr, e⟩ | ⟨sp, hv, hr, e⟩
  · exact ⟨_, e, by simp [decResult, hv, decFailed], by simp [decResult, hv, decFailed, Buffer.empty]⟩
  · exact ⟨_, e, by simp [decResult, hv, hr, decFailed], by simp [decResult, hv, hr, decFailed, Buffer.empty]⟩
  · exact ⟨_, e, by simp [decResult, hv, hr, decAccepted], by simp [decResult, hv, hr, decAccepted, Buffer.ofList]⟩

/-- Settles O53: each response and each stored result is a function of the operands, which the two states share. -/
theorem operationsDependOnTheirOperandsOnly : Obligations.OperationsDependOnTheirOperandsOnly := by
  refine ⟨fun s₁ s₂ hhl hsl hh hd i hi => ?_, fun s₁ s₂ hl hstr => ?_⟩
  · simp only [List.mem_cons, List.not_mem_nil, or_false] at hi
    rcases hi with rfl | rfl | rfl
    · obtain ⟨t₁, e₁, r₁⟩ := exec_ckCreate_code s₁
      obtain ⟨t₂, e₂, r₂⟩ := exec_ckCreate_code s₂
      rw [← hhl, ← hsl] at r₂
      exact ⟨t₁, t₂, _, e₁, e₂, r₁, r₂, nofun⟩
    · obtain ⟨t₁, e₁, r₁⟩ := exec_ckVerify_code s₁
      obtain ⟨t₂, e₂, r₂⟩ := exec_ckVerify_code s₂
      rw [← hhl, ← hsl, ← hh, ← hd] at r₂
      exact ⟨t₁, t₂, _, e₁, e₂, r₁, r₂, nofun⟩
    · obtain ⟨t₁, e₁, r₁, str₁⟩ := exec_encRun_code s₁
      obtain ⟨t₂, e₂, r₂, str₂⟩ := exec_encRun_code s₂
      rw [← hhl, ← hsl] at r₂
      rw [← hhl, ← hsl, ← hh, ← hd] at str₂
      exact ⟨t₁, t₂, _, e₁, e₂, r₁, r₂, fun _ => str₁.trans str₂.symm⟩
  · obtain ⟨t₁, e₁, r₁, b₁⟩ := exec_decRun_result s₁
    obtain ⟨t₂, e₂, r₂, b₂⟩ := exec_decRun_result s₂
    rw [← hl, ← hstr] at r₂ b₂
    obtain ⟨hhrp, hsym⟩ := Prod.mk.inj (b₁.trans b₂.symm)
    exact ⟨t₁, t₂, _, e₁, e₂, r₁, r₂, hhrp, hsym⟩

end Sys2Proof.Machine
end

section
/-! PROOFS. The decoder and the encoder (30_encoding.md R70 to R75): one walk through the opcode map says of every word
what it decodes to, and the encoder is the decoder's inverse. -/

namespace Sys2Proof

/-! ### The encoder gives words that decode to the command -/

theorem requireZeroArg_fields_zero (op sub : BitVec 4) (i : Instr) :
    requireZeroArg (assembleFields op sub 0#8) i = .ok i :=
  if_pos (argField_fields op sub 0#8)

theorem decode_encode (i : Instr) : decode (encode i) = .ok i := by
  cases i with
  | clr m =>
    have low : (m.setWidth 4).extractLsb' 0 3 = m := by
      revert m
      decide
    simp [encode, decode, opField_fields, subField_fields, requireZeroArg_fields_zero, low]
  | pmAbs a | pushH a | pushS a | pushT a | rdH a | rdS a | rdT a | rdK a =>
    simp [encode, decode, opField_fields, subField_fields, argField_fields]
  | _ => rfl

/-- Settles O1: a command of each format is decoded from the three fields its word is put together from. -/
theorem decodeOfEncodeIsTheCommand : Obligations.DecodeOfEncodeIsTheCommand := decode_encode

/-! ### What every word decodes to -/

/-- R75's list of the illegal words, by the numbers in their three fields. -/
def IllegalFields (op sub arg : Nat) : Prop :=
  8 ≤ op ∨ (op = 0 ∧ 2 ≤ sub) ∨ (op = 1 ∧ 3 ≤ sub) ∨ (op = 2 ∧ 2 ≤ sub) ∨ (op = 3 ∧ 2 ≤ sub) ∨
    (op = 4 ∧ 8 ≤ sub) ∨ (op = 5 ∧ 3 ≤ sub) ∨ (op = 6 ∧ 4 ≤ sub) ∨ (op = 7 ∧ 5 ≤ sub) ∨
    ((op = 0 ∨ (op = 1 ∧ sub ≠ 1) ∨ op = 2 ∨ op = 3 ∨ op = 4 ∨ op = 7) ∧ arg ≠ 0)

/-- What the decoder may answer for the word of three fields: the command whose word it is, or an error where R75 lists
the word. -/
inductive DecodesTo (op sub : BitVec 4) (arg : Byte) : Except DecodeError Instr → Prop where
  | ok (i : Instr) (word : encode i = assembleFields op sub arg) : DecodesTo op sub arg (.ok i)
  | error (e : DecodeError) (listed : IllegalFields op.toNat sub.toNat arg.toNat) : DecodesTo op sub arg (.error e)

theorem assembleFields_congr {op op' sub sub' : BitVec 4} (hop : op.toNat = op'.toNat) (hsub : sub.toNat = sub'.toNat)
    (arg : Byte) : assembleFields op' sub' arg = assembleFields op sub arg := by
  rw [BitVec.eq_of_toNat_eq hop, BitVec.eq_of_toNat_eq hsub]

/-- A row of format N, M or R (R74 step 2): its command where `arg` is 0, and a listed word elsewhere. -/
theorem requireZeroArg_decodesTo {op sub : BitVec 4} {arg : Byte} {i : Instr}
    (word : encode i = assembleFields op sub 0#8)
    (listed : arg.toNat ≠ 0 → IllegalFields op.toNat sub.toNat arg.toNat) :
    DecodesTo op sub arg (requireZeroArg (assembleFields op sub arg) i) := by
  unfold requireZeroArg
  rw [argField_fields]
  split
  · next h => exact .ok i (h ▸ word)
  · next h => exact .error _ (listed fun h0 => h (BitVec.eq_of_toNat_eq h0))

theorem getLsbD_three_eq_false_iff (sub : BitVec 4) : sub.getLsbD 3 = false ↔ sub.toNat < 8 := by
  revert sub
  decide

theorem setWidth_extractLsb'_of_getLsbD_three (sub : BitVec 4) (h : sub.getLsbD 3 = false) :
    (sub.extractLsb' 0 3).setWidth 4 = sub := by
  revert sub
  decide

/-- The walk through R73, row by row. -/
theorem decode_decodesTo (op sub : BitVec 4) (arg : Byte) :
    DecodesTo op sub arg (decode (assembleFields op sub arg)) := by
  unfold decode
  rw [opField_fields, subField_fields, argField_fields]
  split
  -- CLR, format M
  case h_10 hop =>
    split
    · next hsub =>
      refine requireZeroArg_decodesTo ?_ (by unfold IllegalFields; omega)
      simpa [encode, setWidth_extractLsb'_of_getLsbD_three sub hsub] using
        assembleFields_congr (op' := 4#4) hop rfl 0#8
    · next hsub =>
      have hsub : ¬ sub.toNat < 8 := (getLsbD_three_eq_false_iff sub).not.mp hsub
      exact .error _ (by unfold IllegalFields; omega)
  -- the rows of formats V, B and X, whose operand is the `arg` byte
  case h_4 hop hsub | h_11 hop hsub | h_12 hop hsub | h_13 hop hsub | h_14 hop hsub | h_15 hop hsub | h_16 hop hsub
      | h_17 hop hsub =>
    exact .ok _ (assembleFields_congr hop hsub arg)
  -- no row
  case h_23 => exact .error _ (by grind [IllegalFields])
  -- the rows of formats N and R
  all_goals
    next hop hsub => exact requireZeroArg_decodesTo (assembleFields_congr hop hsub 0#8) (by unfold IllegalFields; omega)

theorem encode_of_decode {w : CmdWord} {i : Instr} (h : decode w = .ok i) : encode i = w := by
  obtain ⟨op, sub, arg, rfl⟩ := exists_fields w
  have hw := decode_decodesTo op sub arg
  rw [h] at hw
  cases hw with
  | ok _ word => exact word

/-- Settles O2: a word decodes to a command only where the walk through the opcode map found that command's word. -/
theorem decodedWordIsItsEncoding : Obligations.DecodedWordIsItsEncoding := fun _ _ => encode_of_decode

/-! ### The illegal words (R75) -/

/-- No command's word is on R75's list. -/
theorem not_illegalFields_encode (i : Instr) :
    ¬ IllegalFields (opField (encode i)).toNat (subField (encode i)).toNat (argField (encode i)).toNat := by
  cases i with
  | clr m =>
    have hm : m.toNat % 16 < 8 := by omega
    simpa [encode, IllegalFields, opField_fields, subField_fields, argField_fields] using hm
  | _ => simp [encode, IllegalFields, opField_fields, subField_fields, argField_fields]

theorem decode_eq_error_iff (op sub : BitVec 4) (arg : Byte) :
    (∃ e, decode (assembleFields op sub arg) = .error e) ↔ IllegalFields op.toNat sub.toNat arg.toNat := by
  have hw := decode_decodesTo op sub arg
  cases h : decode (assembleFields op sub arg) with
  | ok i =>
    have hi := not_illegalFields_encode i
    rw [encode_of_decode h, opField_fields, subField_fields, argField_fields] at hi
    simpa using hi
  | error e =>
    rw [h] at hw
    cases hw with
    | error _ listed => simpa using listed

/-- Settles O4: the error branch of `execWord`, and the walk through the opcode map with the fields as digits of the
word. -/
theorem illegalWordsAreTheListedOnes : Obligations.IllegalWordsAreTheListedOnes := by
  refine ⟨fun w s ⟨e, he⟩ => Machine.execWord_error he s, fun w => ?_⟩
  obtain ⟨op, sub, arg, rfl⟩ := exists_fields w
  have hop : (assembleFields op sub arg).toNat / 4096 = op.toNat := by rw [toNat_fields]; omega
  have hsub : (assembleFields op sub arg).toNat / 256 % 16 = sub.toNat := by rw [toNat_fields]; omega
  have harg : (assembleFields op sub arg).toNat % 256 = arg.toNat := by rw [toNat_fields]; omega
  simpa only [hop, hsub, harg, IllegalFields] using decode_eq_error_iff op sub arg

end Sys2Proof
end

section
/-! PROOFS. The opcode map (30_encoding.md R73, R75): its rows exclude each other, and how many words it gives
a command. -/

namespace Sys2Proof

/-! ### One row per word -/

theorem encode_in_opcodeRow (i : Instr) : (opcodeRow i).holds (encode i) = true := by
  cases i with
  | nop => exact Laws.EncodeInRow.nop
  | rst => exact Laws.EncodeInRow.rst
  | pmInit => exact Laws.EncodeInRow.pmInit
  | pmAbs a => exact Laws.EncodeInRow.pmAbs a
  | pmHrpx => exact Laws.EncodeInRow.pmHrpx
  | ckCreate => exact Laws.EncodeInRow.ckCreate
  | ckVerify => exact Laws.EncodeInRow.ckVerify
  | encRun => exact Laws.EncodeInRow.encRun
  | decRun => exact Laws.EncodeInRow.decRun
  | clr m => exact Laws.EncodeInRow.clr m
  | pushH b => exact Laws.EncodeInRow.pushH b
  | pushS a => exact Laws.EncodeInRow.pushS a
  | pushT b => exact Laws.EncodeInRow.pushT b
  | rdH a => exact Laws.EncodeInRow.rdH a
  | rdS a => exact Laws.EncodeInRow.rdS a
  | rdT a => exact Laws.EncodeInRow.rdT a
  | rdK a => exact Laws.EncodeInRow.rdK a
  | rdregStatus => exact Laws.EncodeInRow.rdregStatus
  | rdregChk => exact Laws.EncodeInRow.rdregChk
  | rdregHlen => exact Laws.EncodeInRow.rdregHlen
  | rdregSlen => exact Laws.EncodeInRow.rdregSlen
  | rdregTlen => exact Laws.EncodeInRow.rdregTlen

theorem opcodeRow_mem_opcodeRows (i : Instr) : opcodeRow i ∈ opcodeRows := by
  cases i <;> simp [opcodeRows, oneOfEachRow, opcodeRow]

/-- Two rows that hold of one word agree where both masks look. -/
theorem patterns_agree_of_holds {r r' : OpcodeRow} {w : CmdWord} (h : r.holds w = true) (h' : r'.holds w = true) :
    r.pattern &&& r'.mask = r'.pattern &&& r.mask := by
  rw [← eq_of_beq h, ← eq_of_beq h', BitVec.and_assoc, BitVec.and_assoc, BitVec.and_comm r.mask]

/-- Any two different rows of R73 disagree at a bit that both masks look at. -/
theorem opcodeRows_agree_only_with_themselves : ∀ r ∈ opcodeRows, ∀ r' ∈ opcodeRows,
    r.pattern &&& r'.mask = r'.pattern &&& r.mask → r = r' := by
  decide

/-- Settles O3: the word is the command's own and stands in its row; the 22 rows exclude each other in pairs. -/
theorem selectedRowIsTheOnlyRow : Obligations.SelectedRowIsTheOnlyRow := by
  intro w i h
  have hi : (opcodeRow i).holds w = true := encode_of_decode h ▸ encode_in_opcodeRow i
  exact ⟨hi, fun j hj => opcodeRows_agree_only_with_themselves _ (opcodeRow_mem_opcodeRows j) _
    (opcodeRow_mem_opcodeRows i) (patterns_agree_of_holds hj hi)⟩

/-! ### The census -/

theorem card_bitVec (n : Nat) : Nat.card (BitVec n) = 2 ^ n := by
  rw [Nat.card_congr BitVec.equivFin.toEquiv, Nat.card_fin]

theorem finite_bitVec (n : Nat) : Finite (BitVec n) :=
  .of_equiv _ BitVec.equivFin.toEquiv.symm

/-- The commands as the disjoint sum of the 22 rows, each row with the values of its operand. -/
def instrEquiv := proxy_equiv% Instr

/-- 13 commands without an operand, one with a 3-bit mask and eight with a byte. -/
theorem card_instr : Nat.card Instr = 13 + 2 ^ 3 + 8 * 2 ^ 8 := by
  have := finite_bitVec
  rw [← Nat.card_congr instrEquiv]
  simp only [Nat.card_sum, Nat.card_unique, card_bitVec]
  norm_num

/-- The commands and the words that decode to one are in one-to-one correspondence. -/
def commandWords : Instr ≃ { w : CmdWord // ∃ i, decode w = .ok i } where
  toFun i := ⟨encode i, i, decode_encode i⟩
  invFun w := (decode w.1).toOption.get (by
    obtain ⟨w, i, h⟩ := w
    simp [h, Except.toOption])
  left_inv i := by simp [decode_encode, Except.toOption]
  right_inv := by
    rintro ⟨w, i, h⟩
    simp [h, Except.toOption, encode_of_decode h]

theorem not_exists_ok_iff (w : CmdWord) : (¬ ∃ i, decode w = .ok i) ↔ ∃ e, decode w = .error e := by
  cases decode w <;> simp

/-- Settles O5: the words that decode are as many as the commands, and the illegal ones are the rest of the 2^16. -/
theorem censusOfTheWords : Obligations.CensusOfTheWords := by
  have legal : Nat.card { w : CmdWord // ∃ i, decode w = .ok i } = 2069 := by
    rw [← Nat.card_congr commandWords, card_instr]
    norm_num
  refine ⟨legal, ?_⟩
  have := finite_bitVec 16
  classical
  have all := Nat.card_congr (Equiv.sumCompl fun w : CmdWord => ∃ i, decode w = .ok i)
  rw [Nat.card_sum, legal, card_bitVec] at all
  simp only [not_exists_ok_iff] at all
  omega

end Sys2Proof
end

section
/-! PROOFS. Words of commands: those written out from the opcode map (30_encoding.md R73), those a pseudo-instruction
expands to (R80), and the one response each word gets (R78). -/

namespace Sys2Proof

/-- Settles O6, by evaluation of the decoder on the eleven words. -/
theorem writtenOutWordsDecode : Obligations.WrittenOutWordsDecode := by
  unfold Obligations.WrittenOutWordsDecode
  decide

/-- The `arg` field is the low byte of the word. -/
theorem assembleFields_eq_or (op sub : BitVec 4) (arg : Byte) :
    assembleFields op sub arg = assembleFields op sub 0#8 ||| arg.setWidth 16 := by
  unfold assembleFields
  ext k hk
  simp
  grind

end Sys2Proof

namespace Sys2Proof.Machine

theorem encode_pushH (b : Byte) : encode (.pushH b) = 0x5000#16 ||| b.setWidth 16 := assembleFields_eq_or 5 0 b

theorem encode_pushT (b : Byte) : encode (.pushT b) = 0x5200#16 ||| b.setWidth 16 := assembleFields_eq_or 5 2 b

theorem encode_pushS_symbolArg (v : Symbol) : encode (.pushS (symbolArg v)) = 0x5100#16 ||| v.setWidth 16 := by
  have widen : (symbolArg v).setWidth 16 = v.setWidth 16 := by simp [symbolArg]
  exact widen ▸ assembleFields_eq_or 5 1 (symbolArg v)

/-- Settles O19: the fixed words by evaluation, and a push word as its row's pattern with the operand in the low byte. -/
theorem pseudoInstructionsExpand : Obligations.PseudoInstructionsExpand := by
  refine ⟨rfl, fun text => ?_, fun d => ?_, fun text => ?_, rfl⟩
  · have clear : encode (.clr 1#3) = 0x4100#16 := rfl
    simp [Pseudo.expand, encode_pushH, clear]
  · have clear : encode (.clr 2#3) = 0x4200#16 := rfl
    simp [Pseudo.expand, encode_pushS_symbolArg, clear]
  · have clear : encode (.clr 4#3) = 0x4400#16 := rfl
    simp [Pseudo.expand, encode_pushT, clear]

/-- R78, R180 for one command. -/
theorem Ends.response {i : Instr} {s t : State} (h : Ends i s t) : ∃ r, t.responses = s.responses ++ [r] ∧
    r.err.toNat ≤ 12 ∧ (r.err ≠ 0#4 → r.val = 0#32) ∧ (r.val ≠ 0#32 → isRead i = true) := by
  cases h with
  | answer u v kept op rst value =>
    obtain ⟨-, -, hresp, -⟩ := kept
    exact ⟨⟨0#4, v⟩, congrArg (· ++ _) hresp, by simp, by simp, value⟩
  | reset => exact ⟨⟨0#4, 0#32⟩, rfl, by simp, by simp, by simp⟩
  | fault k code => exact ⟨⟨k, 0#32⟩, rfl, by rcases code with rfl | rfl <;> decide, by simp, by simp⟩
  | operation _ k code _ _ responses =>
    exact ⟨⟨k, 0#32⟩, responses, Nat.le_trans code (by decide), by simp, by simp⟩

/-- Settles O49: `Ends.response` for a word that selects a command; an illegal word answers (12, 0). -/
theorem everyWordGetsOneResponse : Obligations.EveryWordGetsOneResponse := by
  intro w s
  obtain ⟨t, ht⟩ := exists_execWord_eq_next w s
  rcases ends_of_execWord ht with ⟨i, hw, hends⟩ | ⟨-, rfl⟩
  · obtain ⟨r, hresp, hcode, hfail, hread⟩ := hends.response
    exact ⟨t, r, ht, hresp, hcode, hfail, fun hv => ⟨i, hw, hread hv⟩⟩
  · exact ⟨_, ⟨12#4, 0#32⟩, ht, rfl, by decide, by simp, by simp⟩

end Sys2Proof.Machine
end

section
/-! PROOFS. The assembler (30_encoding.md R79): it reads back the line the model writes for a command. -/

namespace Sys2Proof.Machine

/-! ### The hexadecimal operand -/

/-- The hexadecimal digit `hexByte` writes for a number below 16. -/
def hexDigit (n : Nat) : Char := Char.ofNat (if n < 10 then 48 + n else 55 + n)

theorem hexByte_eq (b : Byte) : hexByte b = ['0', 'x', hexDigit (b.toNat / 16), hexDigit (b.toNat % 16)] := rfl

theorem hexDigit?_hexDigit : ∀ {n : Nat}, n < 16 → hexDigit? (hexDigit n) = some n := by decide

theorem isTokenChar_hexDigit : ∀ {n : Nat}, n < 16 → isTokenChar (hexDigit n) = true := by decide

theorem isTokenChar_of_mem_hexByte (b : Byte) : ∀ c ∈ hexByte b, isTokenChar c = true := by
  have hhigh := isTokenChar_hexDigit (n := b.toNat / 16) (by omega)
  have hlow := isTokenChar_hexDigit (n := b.toNat % 16) (by omega)
  have hzerox : isTokenChar '0' = true ∧ isTokenChar 'x' = true := by decide
  simp [hexByte_eq, hhigh, hlow, hzerox]

theorem number?_hexByte (b : Byte) : number? (hexByte b) = some b.toNat := by
  have hhigh := hexDigit?_hexDigit (n := b.toNat / 16) (by omega)
  have hlow := hexDigit?_hexDigit (n := b.toNat % 16) (by omega)
  simp only [hexByte_eq, number?, digits?, hhigh, hlow, Option.some.injEq]
  omega

theorem takeToken_of_token {l : List Char} (h : ∀ c ∈ l, isTokenChar c = true) : takeToken l = (l, []) := by
  simp [takeToken, List.takeWhile_eq_self_iff.mpr h, List.dropWhile_eq_nil_iff.mpr h]

theorem takeToken_append_space {m : List Char} (h : ∀ c ∈ m, isTokenChar c = true) (l : List Char) :
    takeToken (m ++ ' ' :: l) = (m, ' ' :: l) := by
  have hspace : isTokenChar ' ' = false := by decide
  simp [takeToken, List.takeWhile_append_of_pos h, List.dropWhile_append_of_pos h, hspace]

theorem numberBelow?_hexByte {bound : Nat} {b : Byte} (h : b.toNat < bound) :
    numberBelow? bound (hexByte b) = some (b.toNat, []) := by
  simp [numberBelow?, takeToken_of_token (isTokenChar_of_mem_hexByte b), number?_hexByte, h]

/-- A hexadecimal operand begins with no quote. -/
theorem quotedByte?_hexByte (b : Byte) : quotedByte? (hexByte b) = none := by
  have hquote : ¬ '0' = squoteChar := by decide
  simp [hexByte_eq, quotedByte?, hquote]

/-! ### A line of a mnemonic and an operand -/

theorem ne_space_and_ne_semicolon_of_isTokenChar {c : Char} (h : isTokenChar c = true) : c ≠ ' ' ∧ c ≠ ';' := by
  constructor <;> rintro rfl <;> exact absurd h (by decide)

theorem skipSpaces_of_token {c : Char} (h : isTokenChar c = true) (l : List Char) : skipSpaces (c :: l) = c :: l := by
  simp [skipSpaces, (ne_space_and_ne_semicolon_of_isTokenChar h).1]

theorem atEnd_of_token {c : Char} (h : isTokenChar c = true) (l : List Char) : atEnd (c :: l) = false := by
  simp [atEnd, skipSpaces_of_token h, (ne_space_and_ne_semicolon_of_isTokenChar h).2]

/-- A line of a mnemonic, a space and a hexadecimal operand. -/
theorem assembleLine_hexByte {m : List Char} (hne : m ≠ []) (hm : m.all isTokenChar = true) (b : Byte) :
    assembleLine (m ++ ' ' :: hexByte b) = operandLine? m (hexByte b) := by
  obtain ⟨c, m, rfl⟩ := List.exists_cons_of_ne_nil hne
  have hm := List.all_eq_true.mp hm
  have hc : isTokenChar c = true := hm c List.mem_cons_self
  have hskip : skipSpaces (' ' :: hexByte b) = hexByte b := rfl
  rw [assembleLine, List.cons_append, atEnd_of_token hc, skipSpaces_of_token hc, ← List.cons_append,
    takeToken_append_space hm, hskip]
  rfl

theorem finishLine_nil (is : List Instr) : finishLine is [] = some is := rfl

theorem assembleLine_number (m : List Char) {f : Byte → Instr} (hne : m ≠ []) (hm : m.all isTokenChar = true)
    (hplain : plainMnemonics.lookup m = none) (hf : numberMnemonics.lookup m = some f) (b : Byte) :
    assembleLine (m ++ ' ' :: hexByte b) = some [f b] := by
  rw [assembleLine_hexByte hne hm]
  simp [operandLine?, hplain, hf, numberBelow?_hexByte b.isLt, finishLine_nil]

theorem assembleLine_byte (m : List Char) {f : Byte → Instr} (hne : m ≠ []) (hm : m.all isTokenChar = true)
    (hplain : plainMnemonics.lookup m = none) (hnumber : numberMnemonics.lookup m = none)
    (hf : byteMnemonics.lookup m = some f) (b : Byte) :
    assembleLine (m ++ ' ' :: hexByte b) = some [f b] := by
  rw [assembleLine_hexByte hne hm]
  simp [operandLine?, hplain, hnumber, hf, quotedByte?_hexByte, numberBelow?_hexByte b.isLt, finishLine_nil]

theorem assembleLine_render_clr (m : BitVec 3) : assembleLine (render (.clr m)) = some [.clr m] := by
  have hline : assembleLine (render (.clr m)) = operandLine? ['C', 'L', 'R'] (hexByte (m.setWidth 8)) :=
    assembleLine_hexByte (m := ['C', 'L', 'R']) (by simp) rfl _
  have hplain : plainMnemonics.lookup ['C', 'L', 'R'] = none := rfl
  have hnumber : numberMnemonics.lookup ['C', 'L', 'R'] = none := rfl
  have hbyte : byteMnemonics.lookup ['C', 'L', 'R'] = none := rfl
  have hm : (m.setWidth 8).toNat = m.toNat := BitVec.toNat_setWidth_of_le (by decide)
  have hoperand := numberBelow?_hexByte (bound := 8) (hm.trans_lt m.isLt)
  rw [hline]
  simp [operandLine?, hplain, hnumber, hbyte, hoperand, hm, finishLine_nil]

/-! ### The written form of every command -/

theorem assembleLine_render (i : Instr) : assembleLine (render i) = some [i] := by
  cases i with
  | pmAbs a => exact assembleLine_number ['P', 'M', '.', 'A', 'B', 'S'] (by simp) rfl rfl rfl a
  | pushS a => exact assembleLine_number ['P', 'U', 'S', 'H', '.', 'S'] (by simp) rfl rfl rfl a
  | rdH a => exact assembleLine_number ['R', 'D', '.', 'H'] (by simp) rfl rfl rfl a
  | rdS a => exact assembleLine_number ['R', 'D', '.', 'S'] (by simp) rfl rfl rfl a
  | rdT a => exact assembleLine_number ['R', 'D', '.', 'T'] (by simp) rfl rfl rfl a
  | rdK a => exact assembleLine_number ['R', 'D', '.', 'K'] (by simp) rfl rfl rfl a
  | pushH a => exact assembleLine_byte ['P', 'U', 'S', 'H', '.', 'H'] (by simp) rfl rfl rfl rfl a
  | pushT a => exact assembleLine_byte ['P', 'U', 'S', 'H', '.', 'T'] (by simp) rfl rfl rfl rfl a
  | clr m => exact assembleLine_render_clr m
  | _ => rfl

/-- Settles O20: a line is read back as its one command, by the shape of the command's operand. -/
theorem assemblerReadsEveryCommand : Obligations.AssemblerReadsEveryCommand := by
  intro i
  simp [assembleWords, assembleLine_render]

end Sys2Proof.Machine
end

section
/-! PROOFS. One absorb step (40_polymod_engine.md R100 to R102): its formula, and its linearity over GF(2) (R109). -/

namespace Sys2Proof.Machine

/-! ### The step as a XOR of three parts -/

/-- The table entries XORed in, with each of the five generator constants written out (R33). -/
theorem selectGen_eq (top : BitVec 5) (t : Word) : selectGen top t =
    t ^^^ (if top.getLsbD 0 = true then 0x3B6A57B2#32 else 0#32)
      ^^^ (if top.getLsbD 1 = true then 0x26508E6D#32 else 0#32)
      ^^^ (if top.getLsbD 2 = true then 0x1EA119FA#32 else 0#32)
      ^^^ (if top.getLsbD 3 = true then 0x3D4233DD#32 else 0#32)
      ^^^ (if top.getLsbD 4 = true then 0x2A1462B3#32 else 0#32) := by
  simp only [selectGen, List.foldl, ite_xor]
  rfl

/-- The step with the absorbed value set apart: a function of the accumulator, XOR the value. -/
theorem absorb_eq_xor (chk v : Word) :
    absorb chk v = (chk.extractLsb' 0 25).setWidth 32 <<< 5 ^^^ selectGen (chk.extractLsb' 25 5) 0#32 ^^^ v := by
  rw [absorb, selectGen_eq_xor, BitVec.xor_assoc, BitVec.xor_assoc, BitVec.xor_comm v]

/-- Settles O21: the selected table entries with the constants written out, and the low 25 bits as a mask. -/
theorem absorbIsTheStatedStep : Obligations.AbsorbIsTheStatedStep := by
  intro chk v
  rw [absorb, selectGen_eq, low25_eq]
  simp only [BitVec.getLsbD_extractLsb']
  simp

/-! ### Which bits of the accumulator matter -/

theorem extractLsb'_and_mask30_top (chk : Word) :
    (chk &&& 0x3FFFFFFF#32).extractLsb' 25 5 = chk.extractLsb' 25 5 := by
  rw [BitVec.extractLsb'_and]
  exact BitVec.and_allOnes

theorem extractLsb'_and_mask30_low (chk : Word) :
    (chk &&& 0x3FFFFFFF#32).extractLsb' 0 25 = chk.extractLsb' 0 25 := by
  rw [BitVec.extractLsb'_and]
  exact BitVec.and_allOnes

theorem extractLsb'_and_top_top (chk : Word) :
    (chk &&& 0x3E000000#32).extractLsb' 25 5 = chk.extractLsb' 25 5 := by
  rw [BitVec.extractLsb'_and]
  exact BitVec.and_allOnes

theorem extractLsb'_and_top_low (chk : Word) : (chk &&& 0x3E000000#32).extractLsb' 0 25 = 0#25 := by
  rw [BitVec.extractLsb'_and]
  exact BitVec.and_zero

/-- R102: masking to 25 bits before the shift, or to bits 29:5 after it. -/
theorem low25_shiftLeft (chk : Word) :
    (chk.extractLsb' 0 25).setWidth 32 <<< 5 = chk <<< 5 &&& 0x3FFFFFE0#32 := by
  rw [low25_eq, BitVec.shiftLeft_and_distrib]
  rfl

/-- Settles O22: the step reads bits 29:25 and bits 24:0, and each mask keeps or clears one of them. -/
theorem absorbDropsTheTopBits : Obligations.AbsorbDropsTheTopBits := by
  refine ⟨fun chk v => ?_, fun chk v => ?_⟩
  · rw [absorb, absorb, extractLsb'_and_mask30_top, extractLsb'_and_mask30_low]
  · have hlow : ((0#25).setWidth 32 : Word) <<< 5 = 0#32 := rfl
    rw [absorb, absorb, extractLsb'_and_top_top, extractLsb'_and_top_low, low25_shiftLeft, hlow, BitVec.zero_xor]

/-! ### Linearity -/

theorem ite_xor_ite (a b : Bool) (g : Word) :
    (if (a ^^ b) = true then g else 0#32) = (if a = true then g else 0#32) ^^^ (if b = true then g else 0#32) := by
  cases a <;> cases b <;> simp

theorem selectGen_xor (a b : BitVec 5) : selectGen (a ^^^ b) 0#32 = selectGen a 0#32 ^^^ selectGen b 0#32 := by
  simp only [selectGen_eq, BitVec.getLsbD_xor, ite_xor_ite, BitVec.zero_xor]
  ac_rfl

theorem absorb_xor (a b u w : Word) : absorb (a ^^^ b) (u ^^^ w) = absorb a u ^^^ absorb b w := by
  simp only [absorb_eq_xor, BitVec.extractLsb'_xor, selectGen_xor, BitVec.setWidth_xor, BitVec.shiftLeft_xor_distrib]
  ac_rfl

theorem absorb_zero_zero : absorb 0#32 0#32 = 0#32 := by decide

/-- Settles O29: each of the step's three parts is linear. -/
theorem absorbIsLinear : Obligations.AbsorbIsLinear := ⟨absorb_xor, absorb_zero_zero⟩

end Sys2Proof.Machine
end

section
/-! PROOFS. The values the engine absorbs (40_polymod_engine.md R104), and the range of the accumulator (R108). -/

namespace Sys2Proof.Machine

/-! ### The expanded HRP -/

@[simp] theorem length_hrpExpand (h : List Byte) : (hrpExpand h).length = 2 * h.length + 1 := by
  simp [hrpExpand]
  omega

theorem hrpExpand_getElem?_high {h : List Byte} {k : Nat} (hk : k < h.length) :
    (hrpExpand h)[k]? = some ((h[k] >>> 5).setWidth 32) := by
  rw [hrpExpand, List.append_assoc, List.getElem?_append_left (by simpa using hk)]
  simp [hk]

theorem hrpExpand_getElem?_middle (h : List Byte) : (hrpExpand h)[h.length]? = some 0#32 := by
  simp [hrpExpand]

theorem hrpExpand_getElem?_low {h : List Byte} {k : Nat} (hk : k < h.length) :
    (hrpExpand h)[h.length + 1 + k]? = some ((h[k] &&& 31#8).setWidth 32) := by
  rw [hrpExpand, List.getElem?_append_right (by simp)]
  simp [hk]

theorem hrpExpand_lt_32 (h : List Byte) : ∀ v ∈ hrpExpand h, v.toNat < 32 := by
  intro v hv
  simp only [hrpExpand, List.mem_append, List.mem_map, List.mem_singleton] at hv
  rcases hv with (⟨c, -, rfl⟩ | rfl) | ⟨c, -, rfl⟩
  · have := c.isLt
    rw [toNat_high]
    omega
  · decide
  · rw [toNat_low]
    omega

/-- Settles O23: an element stands in the high parts, is the 0, or stands in the low parts. -/
theorem hrpExpandElements : Obligations.HrpExpandElements := by
  refine fun h => ⟨length_hrpExpand h, fun k hk => ?_, hrpExpand_getElem?_middle h, fun k hk => ?_, hrpExpand_lt_32 h⟩
  · rw [hrpExpand_getElem?_high hk, Option.map_some, toNat_high]
  · rw [hrpExpand_getElem?_low hk, Option.map_some, toNat_low]

/-! ### What the commands absorb is below 32 -/

theorem toNat_zextSymbol (v : Symbol) : (v.setWidth 32 : Word).toNat = v.toNat :=
  BitVec.toNat_setWidth_of_le (by decide)

theorem zextSymbols_lt_32 (d : List Symbol) : ∀ v ∈ zextSymbols d, v.toNat < 32 := by
  intro v hv
  obtain ⟨x, -, rfl⟩ := List.mem_map.mp hv
  rw [toNat_zextSymbol]
  exact x.isLt

theorem verifyValues_lt_32 (h : List Byte) (d : List Symbol) : ∀ v ∈ verifyValues h d, v.toNat < 32 :=
  List.forall_mem_append.mpr ⟨hrpExpand_lt_32 h, zextSymbols_lt_32 d⟩

theorem createValues_eq (h : List Byte) (d : List Symbol) :
    createValues h d = verifyValues h d ++ List.replicate 6 0#32 := rfl

theorem createValues_lt_32 (h : List Byte) (d : List Symbol) : ∀ v ∈ createValues h d, v.toNat < 32 := by
  refine List.forall_mem_append.mpr ⟨verifyValues_lt_32 h d, fun v hv => ?_⟩
  rw [List.eq_of_mem_replicate hv]
  decide

/-! ### The accumulator below 2^30 -/

/-- The absorbed value decides: its bits 31:30 are the result's. -/
theorem absorb_lt_iff (chk v : Word) : (absorb chk v).toNat < 2 ^ 30 ↔ v.toNat < 2 ^ 30 := by
  rw [toNat_lt_iff_top, toNat_lt_iff_top, absorb_top]

theorem absorbAll_lt {vs : List Word} (hvs : ∀ v ∈ vs, v.toNat < 2 ^ 30) :
    ∀ {chk : Word}, chk.toNat < 2 ^ 30 → (absorbAll chk vs).toNat < 2 ^ 30 := by
  induction vs with
  | nil => exact id
  | cons v vs ih =>
    obtain ⟨hv, hvs⟩ := List.forall_mem_cons.mp hvs
    exact fun _ => ih hvs ((absorb_lt_iff _ v).mpr hv)

theorem polyMod_lt {vs : List Word} (hvs : ∀ v ∈ vs, v.toNat < 2 ^ 30) : (polyMod vs).toNat < 2 ^ 30 :=
  absorbAll_lt hvs (by decide)

theorem lt_two_pow_of_lt_32 {vs : List Word} (h : ∀ v ∈ vs, v.toNat < 32) : ∀ v ∈ vs, v.toNat < 2 ^ 30 :=
  fun v hv => (h v hv).trans (by decide)

theorem verifyResidue_lt (h : List Byte) (d : List Symbol) : (polyMod (verifyValues h d)).toNat < 2 ^ 30 :=
  polyMod_lt (lt_two_pow_of_lt_32 (verifyValues_lt_32 h d))

theorem createResidue_lt (h : List Byte) (d : List Symbol) : (createResidue h d).toNat < 2 ^ 30 :=
  polyMod_lt (lt_two_pow_of_lt_32 (createValues_lt_32 h d))

/-! ### Every command keeps `CHK` below 2^30, but for a rejecting DEC.RUN -/

theorem one_lt_two_pow_thirty : (1#32 : Word).toNat < 2 ^ 30 := by decide

section
variable {s t : State}

theorem execPmAbs_chk_lt {a : Byte} (h : execPmAbs a s = .next t) (hs : s.chk.toNat < 2 ^ 30) :
    t.chk.toNat < 2 ^ 30 := by
  rcases execPmAbs_cases a s with ⟨v, -, e⟩ | ⟨-, e⟩ <;> obtain rfl := next_injective (e.symm.trans h)
  · have hv : (v.setWidth 32 : Word).toNat < 2 ^ 30 := (toNat_zextSymbol v ▸ v.isLt).trans (by decide)
    exact (absorb_lt_iff s.chk _).mpr hv
  · exact hs

theorem execPmHrpx_chk_lt (h : execPmHrpx s = .next t) (hs : s.chk.toNat < 2 ^ 30) : t.chk.toNat < 2 ^ 30 := by
  rcases execPmHrpx_cases s with ⟨-, e⟩ | ⟨-, e⟩ <;> obtain rfl := next_injective (e.symm.trans h)
  · exact absorbAll_lt (lt_two_pow_of_lt_32 (hrpExpand_lt_32 _)) hs
  · exact hs

theorem execCkCreate_chk_lt (h : execCkCreate s = .next t) (hs : s.chk.toNat < 2 ^ 30) : t.chk.toNat < 2 ^ 30 := by
  rcases execCkCreate_cases s with ⟨-, -, e⟩ | ⟨-, e⟩ <;> obtain rfl := next_injective (e.symm.trans h)
  · exact createResidue_lt _ _
  · exact hs

theorem execCkVerify_chk_lt (h : execCkVerify s = .next t) (hs : s.chk.toNat < 2 ^ 30) : t.chk.toNat < 2 ^ 30 := by
  rcases execCkVerify_cases s with ⟨-, -, p, k, rfl, -, e⟩ | ⟨-, e⟩ <;> obtain rfl := next_injective (e.symm.trans h)
  · exact verifyResidue_lt _ _
  · exact hs

theorem execEncRun_chk_lt (h : execEncRun s = .next t) (hs : s.chk.toNat < 2 ^ 30) : t.chk.toNat < 2 ^ 30 := by
  rcases execEncRun_cases s with ⟨-, e⟩ | ⟨-, e⟩ <;> obtain rfl := next_injective (e.symm.trans h)
  · exact createResidue_lt _ _
  · exact hs

/-- DEC.RUN keeps `CHK` on the codes 1 to 7, leaves the residue 1 on success, and any residue on code 8. -/
theorem execDecRun_chk_lt (h : execDecRun s = .next t) (hs : s.chk.toNat < 2 ^ 30) :
    t.chk.toNat < 2 ^ 30 ∨ t.err = 8#4 := by
  rcases execDecRun_cases s with ⟨c, -, e⟩ | ⟨sp, -, -, e⟩ | ⟨sp, -, -, e⟩ <;>
    obtain rfl := next_injective (e.symm.trans h)
  · exact .inl hs
  · exact .inr rfl
  · exact .inl one_lt_two_pow_thirty

/-- Only the commands in the column of `CHK` of R40's matrix need a look. -/
theorem exec_chk_lt {i : Instr} (h : exec i s = .next t) (hs : s.chk.toNat < 2 ^ 30) :
    t.chk.toNat < 2 ^ 30 ∨ (i = .decRun ∧ t.err = 8#4) := by
  rcases (exec_withinAccess h).chk with e | rfl | rfl | ⟨a, rfl⟩ | rfl | rfl | rfl | rfl | rfl
  · exact .inl (e ▸ hs)
  · exact .inl (next_injective h ▸ one_lt_two_pow_thirty)
  · exact .inl (next_injective h ▸ one_lt_two_pow_thirty)
  · exact .inl (execPmAbs_chk_lt h hs)
  · exact .inl (execPmHrpx_chk_lt h hs)
  · exact .inl (execCkCreate_chk_lt h hs)
  · exact .inl (execCkVerify_chk_lt h hs)
  · exact .inl (execEncRun_chk_lt h hs)
  · exact (execDecRun_chk_lt h hs).imp_right fun e => ⟨rfl, e⟩

end

/-- Settles O28: the absorbed value decides bits 31:30, and only DEC.RUN can absorb one that is not below 2^30. -/
theorem accumulatorStaysBelowTwoToThirty : Obligations.AccumulatorStaysBelowTwoToThirty :=
  ⟨absorb_top, fun _ => polyMod_lt, fun _ _ _ h hs ht => (exec_chk_lt h hs).resolve_left (Nat.not_lt.mpr ht)⟩

end Sys2Proof.Machine
end

section
/-! PROOFS. What the engine detects: one changed value (40_polymod_engine.md R109 (c)), and every six-symbol ending but
the created checksum (R105, R106). -/

namespace Sys2Proof.Machine

/-! ### One step on a difference of accumulators -/

theorem extractLsb'_top_eq_zero_iff {x : Word} (hx : x.toNat < 2 ^ 30) :
    x.extractLsb' 25 5 = 0#5 ↔ x.toNat < 2 ^ 25 := by
  rw [← BitVec.toNat_inj]
  simp [BitVec.extractLsb'_toNat, Nat.shiftRight_eq_div_pow]
  omega

theorem selectGen_zero : selectGen 0#5 0#32 = 0#32 := by decide

/-- While bits 29:25 are 0 no table entry is selected, and the step only shifts. -/
theorem absorb_of_lt {x : Word} (hx : x.toNat < 2 ^ 25) (v : Word) : absorb x v = x <<< 5 ^^^ v := by
  have htop := (extractLsb'_top_eq_zero_iff (hx.trans (by decide))).mpr hx
  have hlow : (x.extractLsb' 0 25).setWidth 32 = x := by
    apply BitVec.eq_of_toNat_eq
    simp only [BitVec.extractLsb'_toNat, BitVec.toNat_setWidth, Nat.shiftRight_zero]
    omega
  rw [absorb_eq_xor, htop, hlow, selectGen_zero, BitVec.xor_zero]

/-- The low five bits of the table entries are independent: no selection but the empty one clears them. -/
theorem eq_zero_of_selectGen_low {top : BitVec 5} (h : (selectGen top 0#32).extractLsb' 0 5 = 0#5) : top = 0#5 := by
  revert top
  decide

theorem shiftLeft_low (x : Word) : (x <<< 5).extractLsb' 0 5 = 0#5 := by
  apply BitVec.eq_of_toNat_eq
  simp only [BitVec.extractLsb'_toNat, BitVec.toNat_shiftLeft, BitVec.toNat_ofNat, Nat.shiftLeft_eq,
    Nat.shiftRight_zero]
  omega

/-- R109 (b): the step loses no difference below 2^30. Its low five bits tell whether an entry was selected. -/
theorem eq_zero_of_absorb_eq_zero {x : Word} (hx : x.toNat < 2 ^ 30) (h : absorb x 0#32 = 0#32) : x = 0#32 := by
  have htop : x.extractLsb' 25 5 = 0#5 := by
    apply eq_zero_of_selectGen_low
    have hlow := congrArg (BitVec.extractLsb' 0 5) h
    rw [absorb_eq_xor, BitVec.xor_zero, BitVec.extractLsb'_xor, shiftLeft_low, BitVec.zero_xor] at hlow
    exact hlow
  have hx25 := (extractLsb'_top_eq_zero_iff hx).mp htop
  rw [absorb_of_lt hx25, BitVec.xor_zero, ← BitVec.toNat_inj, BitVec.toNat_shiftLeft, Nat.shiftLeft_eq] at h
  apply BitVec.eq_of_toNat_eq
  simp only [BitVec.toNat_ofNat] at h ⊢
  omega

/-! ### One changed value -/

theorem absorb_xor_absorb (x y v : Word) : absorb x v ^^^ absorb y v = absorb (x ^^^ y) 0#32 := by
  rw [← absorb_xor, BitVec.xor_self]

/-- Two accumulators that differ below bit 30 differ after any sequence of values. -/
theorem absorbAll_ne (vs : List Word) : ∀ {x y : Word}, x ≠ y → (x ^^^ y).toNat < 2 ^ 30 →
    absorbAll x vs ≠ absorbAll y vs := by
  induction vs with
  | nil => exact fun hne _ => hne
  | cons v vs ih =>
    intro x y hne hlt
    refine ih (fun heq => hne ?_) ?_
    · have hzero : absorb (x ^^^ y) 0#32 = 0#32 := by rw [← absorb_xor_absorb x y v, heq, BitVec.xor_self]
      exact BitVec.xor_eq_zero_iff.mp (eq_zero_of_absorb_eq_zero hlt hzero)
    · rw [absorb_xor_absorb, absorb_lt_iff]
      decide

/-- The values' difference is the accumulators' after the step that absorbs them. -/
theorem absorb_xor_absorb_value (chk u w : Word) : absorb chk u ^^^ absorb chk w = u ^^^ w := by
  rw [← absorb_xor, BitVec.xor_self, absorb_of_lt (by decide)]
  simp

/-- Settles O30: the changed value changes the accumulator, and no later value can undo it. -/
theorem oneChangedValueChangesPolyMod : Obligations.OneChangedValueChangesPolyMod := by
  intro before after u w hne hlt
  simp only [polyMod, absorbAll_append, absorbAll_cons]
  apply absorbAll_ne
  · rwa [Ne, ← BitVec.xor_eq_zero_iff, absorb_xor_absorb_value, BitVec.xor_eq_zero_iff]
  · rwa [absorb_xor_absorb_value]

/-! ### Six symbols as one number -/

/-- The six groups of `CKS` as one 30-bit number, most significant first (R52). -/
def Cks.value (k : Cks) : Nat := k.toList.foldl (fun n v => n * 32 + v.toNat) 0

theorem toNat_group (p : Word) (sh : Nat) : (p.extractLsb' sh 5).toNat = p.toNat / 2 ^ sh % 32 := by
  simp [BitVec.extractLsb'_toNat, Nat.shiftRight_eq_div_pow]

/-- The groups of a word below 2^30 are its digits in base 32. -/
theorem Cks.eq_ofWord_iff (k : Cks) {p : Word} (hp : p.toNat < 2 ^ 30) : k = Cks.ofWord p ↔ k.value = p.toNat := by
  obtain ⟨k0, k1, k2, k3, k4, k5⟩ := k
  simp only [Cks.ofWord, Cks.value, Cks.toList, List.foldl, Cks.mk.injEq, ← BitVec.toNat_inj, toNat_group]
  omega

/-- A step that only shifts appends one group. -/
theorem toNat_absorb_symbol {x : Word} (hx : x.toNat < 2 ^ 25) (v : Symbol) :
    (absorb x (v.setWidth 32)).toNat = x.toNat * 32 + v.toNat := by
  have hv := v.isLt
  have hshift : (x <<< 5).toNat = x.toNat * 32 := by
    rw [BitVec.toNat_shiftLeft, Nat.shiftLeft_eq]
    omega
  have hxor : (absorb x (v.setWidth 32)).toNat = x.toNat * 32 ^^^ v.toNat := by
    rw [absorb_of_lt hx, BitVec.toNat_xor, toNat_zextSymbol, hshift]
  have hlow : (x.toNat * 32 ^^^ v.toNat) % 2 ^ 5 = v.toNat := by
    rw [Nat.xor_mod_two_pow, Nat.mod_eq_of_lt hv, Nat.mul_mod_left, Nat.zero_xor]
  have hhigh : (x.toNat * 32 ^^^ v.toNat) / 2 ^ 5 = x.toNat := by
    rw [Nat.xor_div_two_pow, Nat.div_eq_of_lt hv, Nat.mul_div_cancel _ (by decide), Nat.xor_zero]
  omega

/-- Symbols absorbed into an accumulator of `m` groups, six groups in all, meet no feedback. -/
theorem toNat_absorbAll_symbols (d : List Symbol) : ∀ {x : Word} {m : Nat}, x.toNat < 32 ^ m → m + d.length ≤ 6 →
    (absorbAll x (zextSymbols d)).toNat = d.foldl (fun n v => n * 32 + v.toNat) x.toNat := by
  induction d with
  | nil => exact fun _ _ => rfl
  | cons v d ih =>
    intro x m hx hm
    rw [List.length_cons] at hm
    have hx25 : x.toNat < 2 ^ 25 := hx.trans_le (Nat.pow_le_pow_right (n := 32) (by decide) (show m ≤ 5 by omega))
    have hstep := toNat_absorb_symbol hx25 v
    have hnext : (absorb x (v.setWidth 32)).toNat < 32 ^ (m + 1) := by
      have := v.isLt
      rw [hstep, Nat.pow_succ]
      omega
    exact (ih hnext (by omega)).trans (by rw [hstep]; rfl)

theorem toNat_absorbAll_zero (k : Cks) : (absorbAll 0#32 (zextSymbols k.toList)).toNat = k.value :=
  toNat_absorbAll_symbols k.toList (m := 0) (by decide) (by simp)

/-! ### The only ending that verifies -/

/-- Linearity of the whole pass, for values absorbed one by one. -/
theorem absorbAll_eq_xor (vs : List Word) : ∀ x y : Word,
    absorbAll (x ^^^ y) vs = absorbAll x (List.replicate vs.length 0#32) ^^^ absorbAll y vs := by
  induction vs with
  | nil => exact fun _ _ => rfl
  | cons v vs ih =>
    intro x y
    simp only [absorbAll_cons, List.length_cons, List.replicate_succ, ← ih, ← absorb_xor, BitVec.zero_xor]

/-- The ending's six symbols enter as one XOR: what the payload leaves after six zeros is `createResidue`. -/
theorem polyMod_verifyValues_append (h : List Byte) (d : List Symbol) (k : Cks) :
    polyMod (hrpExpand h ++ zextSymbols (d ++ k.toList)) =
      createResidue h d ^^^ absorbAll 0#32 (zextSymbols k.toList) := by
  have hpass := absorbAll_eq_xor (zextSymbols k.toList) (polyMod (verifyValues h d)) 0#32
  rw [BitVec.xor_zero] at hpass
  rw [zextSymbols_append, ← List.append_assoc, polyMod, absorbAll_append]
  exact hpass.trans (by rw [createResidue, createValues_eq, polyMod, polyMod, absorbAll_append]; rfl)

/-- Settles O31: the ending must be the number `createResidue ^ 1`, and its groups are the created checksum. -/
theorem onlyTheCreatedChecksumVerifies : Obligations.OnlyTheCreatedChecksumVerifies := by
  intro h d k
  have hlt : (createResidue h d ^^^ 1#32).toNat < 2 ^ 30 := by
    rw [BitVec.toNat_xor]
    exact Nat.xor_lt_two_pow (createResidue_lt h d) (by decide)
  calc verifyChecksum h (zextSymbols (d ++ k.toList)) = true
    _ ↔ createResidue h d ^^^ absorbAll 0#32 (zextSymbols k.toList) = 1#32 := by
      rw [verifyChecksum, polyMod_verifyValues_append, beq_iff_eq, Config.ckConst_eq]
    _ ↔ absorbAll 0#32 (zextSymbols k.toList) = createResidue h d ^^^ 1#32 := by
      rw [← BitVec.xor_right_inj (createResidue h d), ← BitVec.xor_assoc, BitVec.xor_self, BitVec.zero_xor]
    _ ↔ k.value = (createResidue h d ^^^ 1#32).toNat := by rw [← BitVec.toNat_inj, toNat_absorbAll_zero]
    _ ↔ k = createChecksum h d := (Cks.eq_ofWord_iff k hlt).symm

end Sys2Proof.Machine
end

section
/-! PROOFS. The commands of unit PM (40_polymod_engine.md R110 to R114), and the engine driven step by step (R115). -/

namespace Sys2Proof.Machine

/-! ### PM.INIT and PM.ABS -/

theorem exec_pmInit (s : State) : exec .pmInit s = .next (answered (s.setChk 1#32) 0#32) := rfl

theorem exec_pmAbs_symbol (v : Symbol) (s : State) :
    exec (.pmAbs (symbolArg v)) s = .next (answered (s.setChk (absorb s.chk (v.setWidth 32))) 0#32) := by
  simp only [exec, execPmAbs, symbolArg, symbolOperand_of_symbol]
  rfl

theorem exec_pmAbs_out_of_range {a : Byte} (ha : 32 ≤ a.toNat) (s : State) :
    exec (.pmAbs a) s = .next (protocolFault s 10#4) := by
  simp only [exec, execPmAbs, symbolOperand_none ha]
  rfl

theorem encode_pmAbs_symbolArg (v : Symbol) : encode (.pmAbs (symbolArg v)) = 0x1100#16 ||| v.setWidth 16 := by
  have widen : (symbolArg v).setWidth 16 = v.setWidth 16 := by simp [symbolArg]
  exact widen ▸ assembleFields_eq_or 1 1 (symbolArg v)

/-- Settles O24: a symbol's operand byte is read back as the symbol, and a byte of 32 or more is no symbol. -/
theorem pmInitAndPmAbs : Obligations.PmInitAndPmAbs :=
  ⟨decode_encode .pmInit, fun v => encode_pmAbs_symbolArg v ▸ decode_encode _, fun s =>
    ⟨exec_pmInit s, fun v => exec_pmAbs_symbol v s, fun _ ha => exec_pmAbs_out_of_range ha s⟩⟩

/-! ### The operation commands in canonical form -/

theorem exec_pmHrpx {s : State} (hw : Memory.wf s) (hh : s.hrp.len.toNat ≤ 83) :
    exec .pmHrpx s = .next (ended s (absorbAll s.chk (hrpExpand s.hrp.cells)) 0#4) := by
  rw [← State.hrpBytes_of_wf hw]
  exact if_neg (Nat.not_lt.mpr hh)

theorem exec_pmHrpx_too_long {s : State} (hl : 83 < s.hrp.len.toNat) : exec .pmHrpx s = .next (ended s s.chk 9#4) :=
  if_pos hl

/-- Settles O25: the two outcomes of PM.HRPX, the first with the length of the expanded HRP. -/
theorem pmHrpxAbsorbsTheExpandedHrp : Obligations.PmHrpxAbsorbsTheExpandedHrp := by
  refine ⟨decode_encode .pmHrpx, fun s => ⟨fun hw hh => ⟨?_, exec_pmHrpx hw hh⟩, exec_pmHrpx_too_long⟩⟩
  rw [length_hrpExpand, State.hrp_length hw hh]

theorem exec_ckCreate {s : State} (hw : Memory.wf s) (hh : s.hrp.len.toNat ≤ 83) (hd : s.sym.len.toNat ≤ 88) :
    exec .ckCreate s = .next ((ended s (createResidue s.hrp.cells s.sym.cells) 0#4).setCks
      (createChecksum s.hrp.cells s.sym.cells)) := by
  rw [← State.hrpBytes_of_wf hw, ← State.symbols_of_wf hw]
  exact if_neg (not_or.mpr ⟨Nat.not_lt.mpr hh, Nat.not_lt.mpr hd⟩)

theorem exec_ckCreate_too_long {s : State} (hl : 83 < s.hrp.len.toNat ∨ 88 < s.sym.len.toNat) :
    exec .ckCreate s = .next (ended s s.chk 9#4) := if_pos hl

theorem Cks.toNat_ofWord (p : Word) : (Cks.ofWord p).toList.map BitVec.toNat =
    [25, 20, 15, 10, 5, 0].map (fun sh => p.toNat / 2 ^ sh % 32) := by
  simp only [Cks.ofWord, Cks.toList, List.map, toNat_group]

/-- Settles O26: `CKS` is `createChecksum`, whose groups are digits in base 32. -/
theorem ckCreateWritesTheChecksum : Obligations.CkCreateWritesTheChecksum :=
  ⟨decode_encode .ckCreate, fun _ =>
    ⟨fun hw hh hd => ⟨_, Cks.toNat_ofWord _, exec_ckCreate hw hh hd⟩, exec_ckCreate_too_long⟩⟩

theorem exec_ckVerify {s : State} (hw : Memory.wf s) (hh : s.hrp.len.toNat ≤ 83) (hd : s.sym.len.toNat ≤ 88) :
    exec .ckVerify s = .next (ended s (polyMod (verifyValues s.hrp.cells s.sym.cells))
      (if polyMod (verifyValues s.hrp.cells s.sym.cells) = 1#32 then 0#4 else 8#4)) := by
  rcases execCkVerify_cases s with ⟨-, -, p, k, rfl, rfl, e⟩ | ⟨hl, -⟩
  · rwa [State.hrpBytes_of_wf hw, State.symbols_of_wf hw] at e
  · omega

theorem exec_ckVerify_too_long {s : State} (hl : 83 < s.hrp.len.toNat ∨ 88 < s.sym.len.toNat) :
    exec .ckVerify s = .next (ended s s.chk 9#4) := if_pos hl

section
variable {s : State} (hw : Memory.wf s) (hh : s.hrp.len.toNat ≤ 83) (hd : s.sym.len.toNat ≤ 88)
include hw hh hd

theorem exec_ckVerify_of_residue (hp : polyMod (verifyValues s.hrp.cells s.sym.cells) = 1#32) :
    exec .ckVerify s = .next (ended s (polyMod (verifyValues s.hrp.cells s.sym.cells)) 0#4) := by
  rw [exec_ckVerify hw hh hd, if_pos hp]

theorem exec_ckVerify_of_residue_ne (hp : polyMod (verifyValues s.hrp.cells s.sym.cells) ≠ 1#32) :
    exec .ckVerify s = .next (ended s (polyMod (verifyValues s.hrp.cells s.sym.cells)) 8#4) := by
  rw [exec_ckVerify hw hh hd, if_neg hp]

end

/-- Settles O27: the residue goes to `CHK` on both sides of the test, which chooses the code. -/
theorem ckVerifyTestsTheResidue : Obligations.CkVerifyTestsTheResidue :=
  ⟨decode_encode .ckVerify, fun _ =>
    ⟨fun hw hh hd => ⟨exec_ckVerify_of_residue hw hh hd, exec_ckVerify_of_residue_ne hw hh hd⟩,
      exec_ckVerify_too_long⟩⟩

/-! ### The engine driven step by step (R115) -/

/-- PM.ABS of one symbol after another. -/
theorem runInstrs_pmAbs (d : List Symbol) : ∀ s : State, runInstrs (d.map (fun v => .pmAbs (symbolArg v))) s = .next
    { s with chk := absorbAll s.chk (zextSymbols d)
             responses := s.responses ++ List.replicate d.length ⟨0#4, 0#32⟩ } := by
  induction d with
  | nil => intro s; simp [runInstrs, zextSymbols]
  | cons v d ih =>
    intro s
    simp only [List.map_cons, runInstrs, exec_pmAbs_symbol, ih]
    simp [answered, zextSymbols, List.replicate_succ]

/-- PM.INIT, PM.HRPX and PM.ABS of the symbols `d`: the pass of polyMod over the expanded HRP and `d`. -/
theorem runInstrs_polyMod {s : State} (hw : Memory.wf s) (hh : s.hrp.len.toNat ≤ 83) (d : List Symbol) :
    ∃ t, runInstrs ([.pmInit, .pmHrpx] ++ d.map (fun v => .pmAbs (symbolArg v))) s = .next t ∧
      t.chk = polyMod (verifyValues s.hrp.cells d) ∧ t.cks = s.cks := by
  have hhrpx := exec_pmHrpx (s := answered (s.setChk 1#32) 0#32) hw hh
  simp only [List.cons_append, List.nil_append, runInstrs, exec_pmInit, hhrpx, runInstrs_pmAbs]
  exact ⟨_, rfl, (absorbAll_append ..).symm, rfl⟩

/-- PM.PAD is PM.ABS of six more symbols, all 0. -/
theorem pmPad_expand : Pseudo.pmPad.expand = (List.replicate 6 0#5).map (fun v => .pmAbs (symbolArg v)) := rfl

theorem createValues_eq_padded (h : List Byte) (d : List Symbol) :
    createValues h d = verifyValues h (d ++ List.replicate 6 0#5) := by
  rw [verifyValues, zextSymbols_append, ← List.append_assoc]
  rfl

theorem residueCode_eq_zero_iff (p : Word) : (if p = 1#32 then 0#4 else 8#4) = 0#4 ↔ p = 1#32 := by simp

/-- Settles O32: both runs are the pass of polyMod, with the pad over the values of createChecksum. -/
theorem stepwisePolyModEqualsTheCommands : Obligations.StepwisePolyModEqualsTheCommands := by
  intro s hw hh hd
  constructor
  · obtain ⟨t, ht, hchk, hcks⟩ := runInstrs_polyMod hw hh (s.sym.cells ++ List.replicate 6 0#5)
    rw [List.map_append, ← List.append_assoc, ← pmPad_expand] at ht
    rw [← createValues_eq_padded] at hchk
    exact ⟨t, _, ht, exec_ckCreate hw hh hd, hchk, by rw [hchk]; rfl, hcks⟩
  · obtain ⟨t, ht, hchk, -⟩ := runInstrs_polyMod hw hh s.sym.cells
    exact ⟨t, _, ht, exec_ckVerify hw hh hd, hchk, by rw [hchk]; exact residueCode_eq_zero_iff _⟩

end Sys2Proof.Machine
end

section
/-! PROOFS. The function encode (41_encoder.md R130): where its parts stand (R133), and the letters it writes (R136). -/

namespace Sys2Proof.Machine

/-- The output as the HRP, the separator, and one mapped list of symbols: the form in which DEC.RUN splits it. -/
theorem encodeString_eq (h : List Byte) (d : List Symbol) :
    encodeString h d = h ++ 0x31#8 :: (d ++ (createChecksum h d).toList).map charset := by
  simp [encodeString]

/-! ### The parts by position (R133) -/

theorem encodeString_getElem?_hrp {h : List Byte} {i : Nat} (hi : i < h.length) (d : List Symbol) :
    (encodeString h d)[i]? = h[i]? := by
  rw [encodeString_eq, List.getElem?_append_left hi]

theorem encodeString_getElem?_separator (h : List Byte) (d : List Symbol) :
    (encodeString h d)[h.length]? = some 0x31#8 := by
  simp [encodeString_eq]

/-- Behind the separator stand the mapped symbols, the payload's and the checksum's. -/
theorem encodeString_getElem?_data (h : List Byte) (d : List Symbol) (j : Nat) :
    (encodeString h d)[h.length + 1 + j]? = (d ++ (createChecksum h d).toList)[j]?.map charset := by
  rw [encodeString_eq, List.getElem?_append_right (by omega), show h.length + 1 + j - h.length = j + 1 by omega,
    List.getElem?_cons_succ, List.getElem?_map]

theorem encodeString_getElem?_payload {d : List Symbol} {j : Nat} (hj : j < d.length) (h : List Byte) :
    (encodeString h d)[h.length + 1 + j]? = d[j]?.map charset := by
  rw [encodeString_getElem?_data, List.getElem?_append_left hj]

theorem encodeString_getElem?_checksum (h : List Byte) (d : List Symbol) (i : Nat) :
    (encodeString h d)[h.length + d.length + 1 + i]? = ((createChecksum h d).read i).map charset := by
  rw [show h.length + d.length + 1 + i = h.length + 1 + (d.length + i) by omega, encodeString_getElem?_data,
    List.getElem?_append_right (by omega), Nat.add_sub_cancel_left, Cks.read]

/-! ### The characters of the data part -/

theorem sep_notMem_map_charset (ss : List Symbol) : 0x31#8 ∉ ss.map charset := by
  intro hm
  obtain ⟨s, -, hs⟩ := List.mem_map.mp hm
  obtain ⟨hsep, -⟩ := charset_char s
  exact hsep hs

theorem not_hasUpper_map_charset (ss : List Symbol) : ¬ HasUpper (ss.map charset) := by
  rintro ⟨x, hx, hu⟩
  obtain ⟨s, -, rfl⟩ := List.mem_map.mp hx
  obtain ⟨-, hlower, -, -⟩ := charset_char s
  exact Bool.false_ne_true (hlower.symm.trans ((isUpper_iff _).mpr hu))

theorem map_charset_allInRange (ss : List Symbol) : AllInRange (ss.map charset) := by
  intro x hx
  obtain ⟨s, -, rfl⟩ := List.mem_map.mp hx
  obtain ⟨-, -, hrange, -⟩ := charset_char s
  exact (inRange_iff _).mp hrange

theorem hasUpper_append (l m : List Byte) : HasUpper (l ++ m) ↔ HasUpper l ∨ HasUpper m := by
  rw [← any_isUpper_iff, ← any_isUpper_iff, ← any_isUpper_iff, List.any_append, Bool.or_eq_true]

theorem hasUpper_cons_sep (l : List Byte) : HasUpper (0x31#8 :: l) ↔ HasUpper l := by
  rw [← any_isUpper_iff, ← any_isUpper_iff, List.any_cons]
  rfl

theorem hasUpper_encodeString (h : List Byte) (d : List Symbol) : HasUpper (encodeString h d) ↔ HasUpper h := by
  rw [encodeString_eq, hasUpper_append, hasUpper_cons_sep, or_iff_left (not_hasUpper_map_charset _)]

theorem allInRange_encodeString {h : List Byte} (hh : AllInRange h) (d : List Symbol) :
    AllInRange (encodeString h d) := by
  rw [encodeString_eq]
  exact List.forall_mem_append.mpr ⟨hh, List.forall_mem_cons.mpr ⟨by decide, map_charset_allInRange _⟩⟩

theorem map_foldCase_of_not_hasUpper {cs : List Byte} (hu : ¬ HasUpper cs) : cs.map foldCase = cs := by
  refine (List.map_congr_left fun c hc => foldCase_of_not_upper ?_).trans (List.map_id' cs)
  exact Bool.eq_false_iff.mpr fun hi => hu ⟨c, hc, (isUpper_iff c).mp hi⟩

/-- Settles O37: the tail is the separator and characters of the alphabet, which has no upper-case letter. -/
theorem encodingIsLowerCaseByConstruction : Obligations.EncodingIsLowerCaseByConstruction :=
  fun h d => ⟨⟨_, encodeString_eq h d, (hasUpper_cons_sep _).not.mpr (not_hasUpper_map_charset _)⟩,
    hasUpper_encodeString h d⟩

end Sys2Proof.Machine
end

section
/-! PROOFS. The command ENC.RUN (41_encoder.md R131): what it writes and where each part of it is read (R133). -/

namespace Sys2Proof.Machine

theorem Buffer.toNat_ofList_len {w : Nat} {l : List (BitVec w)} (hl : l.length ≤ 255) :
    (Buffer.ofList l).len.toNat = l.length := by
  rw [Buffer.ofList_len, BitVec.toNat_ofNat]
  omega

/-- A canonical buffer within its capacity is what a RUN command writes for its cells. -/
theorem Buffer.ofList_cells_of_wf {w cap : Nat} {b : Buffer w} (h : b.wf cap) (hc : b.len.toNat ≤ cap) :
    Buffer.ofList b.cells = b := by
  rw [Buffer.ofList, Buffer.length_of_wf h hc, BitVec.ofNat_toNat, BitVec.setWidth_eq]

/-- The next state of ENC.RUN on operands that fit (R131). -/
def encoded (s : State) : State :=
  ((ended s (createResidue s.hrp.cells s.sym.cells) 0#4).setCks (createChecksum s.hrp.cells s.sym.cells)).setStr
    (.ofList (encodeString s.hrp.cells s.sym.cells))

@[simp] theorem encoded_cks (s : State) : (encoded s).cks = createChecksum s.hrp.cells s.sym.cells := rfl

@[simp] theorem encoded_str (s : State) : (encoded s).str = .ofList (encodeString s.hrp.cells s.sym.cells) := rfl

theorem exec_encRun_too_long {s : State} (hl : 90 < s.hrp.len.toNat + s.sym.len.toNat + 7) :
    exec .encRun s = .next ((ended s s.chk 9#4).setStr .empty) := if_pos hl

section
variable {s : State} (hw : Memory.wf s) (hl : s.hrp.len.toNat + s.sym.len.toNat + 7 ≤ 90)
include hw hl

theorem exec_encRun : exec .encRun s = .next (encoded s) := by
  rw [encoded, ← State.hrpBytes_of_wf hw, ← State.symbols_of_wf hw]
  exact if_neg (Nat.not_lt.mpr hl)

theorem hrp_length_of_fits : s.hrp.cells.length = s.hrp.len.toNat := State.hrp_length hw (by omega)

theorem sym_length_of_fits : s.sym.cells.length = s.sym.len.toNat := State.sym_length hw (by omega)

theorem encodeString_length_of_fits :
    (encodeString s.hrp.cells s.sym.cells).length = s.hrp.len.toNat + s.sym.len.toNat + 7 := by
  rw [encodeString_length, hrp_length_of_fits hw hl, sym_length_of_fits hw hl]

theorem encoded_wf : Memory.wf (encoded s) :=
  ⟨hw.1, hw.2.1, Buffer.ofList_wf ((encodeString_length_of_fits hw hl).trans_le hl) (by decide)⟩

theorem encoded_str_read (i : Nat) : (encoded s).str.read 90 i = (encodeString s.hrp.cells s.sym.cells)[i]? :=
  State.str_read (encoded_wf hw hl) i

/-- The stored string in R131's own words, with its counter. -/
theorem ofList_encodeString_of_fits : Buffer.ofList (encodeString s.hrp.cells s.sym.cells) =
    ⟨s.hrp.cells ++ [0x31#8] ++ s.sym.cells.map charset ++ (createChecksum s.hrp.cells s.sym.cells).toList.map charset,
      BitVec.ofNat 8 (s.hrp.len.toNat + s.sym.len.toNat + 7)⟩ := by
  rw [Buffer.ofList, encodeString_length_of_fits hw hl, encodeString, List.map_append,
    List.append_assoc _ (List.map _ _)]

end

/-- Settles O35: `CKS` is `createChecksum`, whose groups are digits in base 32, and `STR` the encoded string. -/
theorem encRunWritesTheEncodedString : Obligations.EncRunWritesTheEncodedString := by
  refine ⟨decode_encode .encRun, fun s => ⟨fun hw hl => ⟨_, Cks.toNat_ofWord _, ?_⟩, exec_encRun_too_long⟩⟩
  rw [exec_encRun hw hl, encoded, ofList_encodeString_of_fits hw hl]
  rfl

/-- Settles O36: a read of a canonical buffer is a look into its list, where the parts stand one behind the other. -/
theorem encodedFrameLayout : Obligations.EncodedFrameLayout := by
  intro s hw hl
  refine ⟨_, exec_encRun hw hl, ?_⟩
  simp only [encoded_str_read hw hl, State.hrp_read hw, State.sym_read hw, encoded_cks,
    ← hrp_length_of_fits hw hl, ← sym_length_of_fits hw hl, ← encodeString_length]
  refine ⟨fun i hi => ?hrp, ?separator, fun j hj => ?payload, fun i _ => ?checksum, fun i hi => ?within,
    fun i hi => ?beyond⟩
  case hrp => exact encodeString_getElem?_hrp hi _
  case separator => exact encodeString_getElem?_separator _ _
  case payload => exact encodeString_getElem?_payload hj _
  case checksum => exact encodeString_getElem?_checksum _ _ i
  case within => exact Option.isSome_iff_exists.mpr ⟨_, List.getElem?_eq_getElem hi⟩
  case beyond => exact List.getElem?_eq_none hi

end Sys2Proof.Machine
end

section
/-! PROOFS. The strings DEC.RUN accepts (42_decoder.md R141 to R146): those whose folded form is the encoding of what it
returns. -/

namespace Sys2Proof.Machine

/-! ### Steps 4 to 6 on a split string -/

/-- The reverse mapping undoes the alphabet on whole lists. -/
theorem map_reverseChar_eq_iff (cs : List Byte) (ss : List Symbol) :
    cs.map reverseChar = ss.map some ↔ cs = ss.map charset := by
  induction cs generalizing ss with
  | nil => cases ss <;> simp
  | cons c cs ih => cases ss <;> simp [reverseChar_eq_some, ih]

/-- At least six symbols end in the contents of some checksum registers. -/
theorem exists_eq_append_toList {ss : List Symbol} (hl : 6 ≤ ss.length) : ∃ d k, ss = d ++ Cks.toList k := by
  refine ⟨ss.take (ss.length - 6), ?_⟩
  have hlast : (ss.drop (ss.length - 6)).length = 6 := by
    rw [List.length_drop]
    omega
  match hd : ss.drop (ss.length - 6), hlast with
  | [k0, k1, k2, k3, k4, k5], _ =>
    exact ⟨⟨k0, k1, k2, k3, k4, k5⟩, by rw [Cks.toList, ← hd, List.take_append_drop]⟩

theorem payload_append_toList (h : List Byte) (d : List Symbol) (k : Cks) :
    Split.payload ⟨h, (d ++ k.toList).map some⟩ = d := by
  rw [payload_symbols]
  simp

/-- Data without an `INVALID` element is a list of symbols. -/
theorem exists_symbols_of_not_inv {sp : Split} (hi : sp.inv = false) : ∃ ss : List Symbol, sp.data = ss.map some := by
  have hsome : ∀ o ∈ sp.data, o ∈ Set.range (some : Symbol → Option Symbol) := by
    simpa [Split.inv, Option.ne_none_iff_exists] using hi
  obtain ⟨ss, hss⟩ := (Set.range_list_map some).ge hsome
  exact ⟨ss, hss.symm⟩

/-- Step 5 on symbols is verifyChecksum. -/
theorem rejected_symbols (h : List Byte) (ss : List Symbol) :
    Split.rejected ⟨h, ss.map some⟩ = false ↔ verifyChecksum h (zextSymbols ss) = true := by
  have hres : Split.residue ⟨h, ss.map some⟩ = polyMod (hrpExpand h ++ zextSymbols ss) := by
    simp only [Split.residue, zextSymbols, List.map_map]
    rfl
  have hinv : Split.inv ⟨h, ss.map some⟩ = false := by simp [Split.inv]
  simp [Split.rejected, verifyChecksum, hres, hinv]

/-- Steps 5 and 6 return the payload `d` exactly for `d` followed by its created checksum. -/
theorem accepts_iff {data : List (Option Symbol)} (hl : 6 ≤ data.length) (h : List Byte) (d : List Symbol) :
    Split.rejected ⟨h, data⟩ = false ∧ Split.payload ⟨h, data⟩ = d ↔
      data = (d ++ (createChecksum h d).toList).map some := by
  constructor
  · rintro ⟨hr, rfl⟩
    obtain ⟨ss, rfl⟩ := exists_symbols_of_not_inv (Bool.or_eq_false_iff.mp hr).2
    obtain ⟨d, k, rfl⟩ := exists_eq_append_toList (List.length_map some ▸ hl)
    rw [rejected_symbols, onlyTheCreatedChecksumVerifies] at hr
    rw [payload_append_toList, ← hr]
  · rintro rfl
    exact ⟨(rejected_symbols _ _).mpr ((onlyTheCreatedChecksumVerifies _ _ _).mpr rfl), payload_append_toList _ _ _⟩

/-! ### The function decode -/

theorem decodeString_eq_ok_iff (str h : List Byte) (d : List Symbol) : decodeString str = .ok (h, d) ↔
    ∃ sp, validate str.length str = .ok sp ∧ sp.hrp = h ∧ sp.rejected = false ∧ sp.payload = d := by
  rw [decodeString]
  cases validate str.length str with
  | error c => simp
  | ok sp => cases hr : sp.rejected <;> simp [hr]

/-- Only an encoding, in either case, is decoded. -/
theorem encodes_of_decodeString {str h : List Byte} {d : List Symbol} (hdec : decodeString str = .ok (h, d)) :
    str.length ≤ 90 ∧ AllInRange str ∧ ¬ (HasUpper str ∧ HasLower str) ∧ h ≠ [] ∧
      str.map foldCase = encodeString h d := by
  obtain ⟨sp, hv, hh, hacc⟩ := (decodeString_eq_ok_iff ..).mp hdec
  obtain ⟨-, hlen, hrange, hcase, p, q, ⟨rfl, -⟩, hne, hl, rfl⟩ := validate_ok hv
  obtain rfl : p.map foldCase = h := hh
  simp only [List.length_append, List.length_cons] at hl
  have hdata := (accepts_iff (by rw [List.length_map]; omega) _ d).mp hacc
  have hchars := (map_reverseChar_eq_iff (q.map foldCase) _).mp ((List.map_map ..).trans hdata)
  refine ⟨hlen, hrange, hcase, by simpa using hne, ?_⟩
  rw [encodeString_eq, ← hchars, List.map_append, List.map_cons]
  rfl

/-- Every encoding of a non-empty HRP is decoded, in either case. -/
theorem decodeString_of_encodes {str h : List Byte} {d : List Symbol} (hlen : str.length ≤ 90)
    (hrange : AllInRange str) (hcase : ¬ (HasUpper str ∧ HasLower str)) (hne : h ≠ [])
    (hfold : str.map foldCase = encodeString h d) : decodeString str = .ok (h, d) := by
  have hl : str.length = h.length + d.length + 7 := by
    rw [← encodeString_length, ← hfold, List.length_map]
  have hpos := List.length_pos_iff.mpr hne
  rw [encodeString_eq, List.map_eq_append_iff] at hfold
  obtain ⟨p, rest, rfl, rfl, hrest⟩ := hfold
  obtain ⟨c, q, rfl, hc, hq⟩ := List.map_eq_cons_iff.mp hrest
  obtain rfl := (foldCase_eq_sep c).mp hc
  simp only [List.length_append, List.length_cons, List.length_map] at hl hpos
  have hsep : 0x31#8 ∉ q := fun hm => sep_notMem_map_charset _ (hq ▸ List.mem_map.mpr ⟨_, hm, rfl⟩)
  have hv := validate_split (n := (p ++ 0x31#8 :: q).length) (by simp; omega) hlen hrange hcase hsep
  rw [if_neg (List.length_pos_iff.mp hpos), if_neg (by simp; omega)] at hv
  have hdata := (List.map_map ..).symm.trans ((map_reverseChar_eq_iff _ _).mpr hq)
  exact (decodeString_eq_ok_iff ..).mpr ⟨_, hv, rfl, (accepts_iff (by rw [List.length_map]; omega) _ d).mpr hdata⟩

/-- R137 for the functions: an HRP without upper-case letters is encoded to a string that decodes to the operands. -/
theorem decodeString_encodeString {h : List Byte} {d : List Symbol} (hlen : h.length + d.length + 7 ≤ 90)
    (hne : h ≠ []) (hrange : AllInRange h) (hupper : ¬ HasUpper h) :
    decodeString (encodeString h d) = .ok (h, d) := by
  have hupper' : ¬ HasUpper (encodeString h d) := (hasUpper_encodeString h d).not.mpr hupper
  exact decodeString_of_encodes ((encodeString_length h d).trans_le hlen) (allInRange_encodeString hrange d)
    (fun hmixed => hupper' hmixed.1) hne (map_foldCase_of_not_hasUpper hupper')

/-! ### The command -/

theorem decFailed_ne_decAccepted {s : State} {k : BitVec 4} (hk : k ≠ 0#4) (p : Word) (h : List Byte)
    (d : List Symbol) : decFailed s p k ≠ decAccepted s h d := fun e => hk (congrArg State.err e)

theorem decAccepted_inj {s : State} {h h' : List Byte} {d d' : List Symbol} :
    decAccepted s h d = decAccepted s h' d' ↔ h = h' ∧ d = d' :=
  ⟨fun e => ⟨congrArg (·.hrp.cells) e, congrArg (·.sym.cells) e⟩, by rintro ⟨rfl, rfl⟩; rfl⟩

theorem exec_decRun_eq_decAccepted_iff_validate (s : State) (h : List Byte) (d : List Symbol) :
    exec .decRun s = .next (decAccepted s h d) ↔
      ∃ sp, validate s.str.len.toNat s.strBytes = .ok sp ∧ sp.hrp = h ∧ sp.rejected = false ∧ sp.payload = d := by
  rw [exec]
  rcases execDecRun_cases s with ⟨c, hv, e⟩ | ⟨sp, hv, hr, e⟩ | ⟨sp, hv, hr, e⟩
  · have hc : c.bits ≠ 0#4 := fun h0 => absurd (h0 ▸ (validate_error hv).1) (by decide)
    simp [e, hv, decFailed_ne_decAccepted hc]
  · simp [e, hv, hr, decFailed_ne_decAccepted]
  · simp [e, hv, hr, decAccepted_inj]

/-- DEC.RUN ends in success exactly when the function decode does, and past the limit of 90 never. -/
theorem exec_decRun_eq_decAccepted_iff {s : State} (hw : Memory.wf s) (h : List Byte) (d : List Symbol) :
    exec .decRun s = .next (decAccepted s h d) ↔ s.str.len.toNat ≤ 90 ∧ decodeString s.str.cells = .ok (h, d) := by
  rw [exec_decRun_eq_decAccepted_iff_validate, State.strBytes_of_wf hw, decodeString_eq_ok_iff]
  by_cases hl : s.str.len.toNat ≤ 90
  · rw [State.str_length hw hl, and_iff_right hl]
  · simp [validate_too_long _ (not_le.mp hl), hl]

/-- Settles O41: the function decode returns an HRP and payload exactly for the two cases of their encoding. -/
theorem decRunAcceptsExactlyTheEncodings : Obligations.DecRunAcceptsExactlyTheEncodings := by
  intro s h d hw
  rw [exec_decRun_eq_decAccepted_iff hw]
  constructor
  · rintro ⟨hl, hdec⟩
    exact ⟨hl, (encodes_of_decodeString hdec).2⟩
  · rintro ⟨hl, hrange, hcase, hne, hfold⟩
    exact ⟨hl, decodeString_of_encodes (State.str_length hw hl ▸ hl) hrange hcase hne hfold⟩

end Sys2Proof.Machine
end

section
/-! PROOFS. The two RUN commands together: the round trip (41_encoder.md R137), and the operands each leaves
(R131, R140). -/

namespace Sys2Proof.Machine

/-- DEC.RUN on what ENC.RUN has written (R137). -/
theorem exec_decRun_encoded {s : State} (hw : Memory.wf s) (hpos : 1 ≤ s.hrp.len.toNat)
    (hl : s.hrp.len.toNat + s.sym.len.toNat + 7 ≤ 90) (hrange : AllInRange s.hrp.cells)
    (hupper : ¬ HasUpper s.hrp.cells) :
    exec .decRun (encoded s) = .next (decAccepted (encoded s) s.hrp.cells s.sym.cells) := by
  have hlen := encodeString_length_of_fits hw hl
  have hne : s.hrp.cells ≠ [] := List.length_pos_iff.mp ((hrp_length_of_fits hw hl).symm ▸ hpos)
  refine (exec_decRun_eq_decAccepted_iff (encoded_wf hw hl) _ _).mpr ⟨?_, ?_⟩
  · rw [encoded_str, Buffer.toNat_ofList_len (by omega), hlen]
    exact hl
  · exact decodeString_encodeString (encodeString_length _ _ ▸ hlen.trans_le hl) hne hrange hupper

/-- Settles O42: DEC.RUN accepts the encoded string, and the buffers it writes are the canonical operands. -/
theorem encodeThenDecodeReturnsTheOperands : Obligations.EncodeThenDecodeReturnsTheOperands := by
  intro s hw hpos hl hchars
  have hrange : AllInRange s.hrp.cells := fun x hx =>
    have ⟨hlo, hhi, _⟩ := hchars x hx
    ⟨hlo, hhi⟩
  have hupper : ¬ HasUpper s.hrp.cells := fun ⟨x, hx, hu⟩ =>
    have ⟨_, _, hnot⟩ := hchars x hx
    hnot hu
  refine ⟨decAccepted (encoded s) s.hrp.cells s.sym.cells, ?_, List.append_assoc ..,
    Buffer.ofList_cells_of_wf (cap := 83) hw.1 (by omega), Buffer.ofList_cells_of_wf (cap := 88) hw.2.1 (by omega)⟩
  simp only [runInstrs, exec_encRun hw hl, exec_decRun_encoded hw hpos hl hrange hupper]

/-- Settles O52: neither command stands in its operands' columns of the access matrix. -/
theorem runCommandsKeepTheirOperands : Obligations.RunCommandsKeepTheirOperands := by
  refine ⟨fun s t h => ?_, fun s t h => ?_⟩
  · have access := exec_withinAccess h
    have hrp : t.hrp = s.hrp := by simpa using access.hrp
    have sym : t.sym = s.sym := by simpa using access.sym
    have pflt : t.pflt = s.pflt := by simpa [ChecksOperand] using access.pflt
    rw [hrp, sym]
    exact ⟨fun _ => rfl, fun _ => rfl, rfl, rfl, pflt⟩
  · have access := exec_withinAccess h
    have str : t.str = s.str := by simpa using access.str
    have cks : t.cks = s.cks := by simpa using access.cks
    have pflt : t.pflt = s.pflt := by simpa [ChecksOperand] using access.pflt
    rw [str]
    exact ⟨fun _ => rfl, rfl, cks, pflt⟩

end Sys2Proof.Machine
end

section
/-! PROOFS. DEC.RUN on a string that fails a check, and on one that passes them all (42_decoder.md R141 to R149). -/

namespace Sys2Proof.Machine

/-! ### The command, by what steps 1 to 5 give -/

section
variable {s : State} (hw : Memory.wf s)
include hw

theorem exec_decRun_of_error {c : Code} (hv : validate s.str.len.toNat s.str.cells = .error c) :
    exec .decRun s = .next (decFailed s s.chk c.bits) := by
  rw [← State.strBytes_of_wf hw] at hv
  rcases execDecRun_cases s with ⟨c', hv', e⟩ | ⟨sp, hv', -, -⟩ | ⟨sp, hv', -, -⟩ <;> cases hv.symm.trans hv'
  exact e

theorem exec_decRun_of_rejected {sp : Split} (hv : validate s.str.len.toNat s.str.cells = .ok sp)
    (hr : sp.rejected = true) : exec .decRun s = .next (decFailed s sp.residue 8#4) := by
  rw [← State.strBytes_of_wf hw] at hv
  rcases execDecRun_cases s with ⟨c, hv', -⟩ | ⟨sp', hv', -, e⟩ | ⟨sp', hv', hr', -⟩ <;> cases hv.symm.trans hv'
  · exact e
  · exact absurd (hr.symm.trans hr') nofun

theorem exec_decRun_of_accepted {sp : Split} (hv : validate s.str.len.toNat s.str.cells = .ok sp)
    (hr : sp.rejected = false) : exec .decRun s = .next (decAccepted s sp.hrp sp.payload) := by
  rw [← State.strBytes_of_wf hw] at hv
  exact (exec_decRun_eq_decAccepted_iff_validate s _ _).mpr ⟨sp, hv, rfl, hr, rfl⟩

end

/-! ### The function, by what steps 1 to 5 give -/

theorem decodeString_of_error {str : List Byte} {c : Code} (hv : validate str.length str = .error c) :
    decodeString str = .error c := by
  rw [decodeString, hv]

theorem decodeString_of_rejected {str : List Byte} {sp : Split} (hv : validate str.length str = .ok sp)
    (hr : sp.rejected = true) : decodeString str = .error .invalidChecksum := by
  simp only [decodeString, hv, hr, if_true]

theorem decodeString_of_accepted {str : List Byte} {sp : Split} (hv : validate str.length str = .ok sp)
    (hr : sp.rejected = false) : decodeString str = .ok (sp.hrp, sp.payload) :=
  (decodeString_eq_ok_iff ..).mpr ⟨sp, hv, rfl, hr, rfl⟩

/-! ### The strings that pass steps 1 to 3 -/

/-- The string `h`, separator, `d` passes the checks of R141 to R143, cut at this separator. -/
structure PassesChecks (h d : List Byte) : Prop where
  length : (h ++ 0x31#8 :: d).length ≤ 90
  range : AllInRange (h ++ 0x31#8 :: d)
  unmixed : ¬ (HasUpper (h ++ 0x31#8 :: d) ∧ HasLower (h ++ 0x31#8 :: d))
  sep : 0x31#8 ∉ d
  hrp : h ≠ []
  data : 6 ≤ d.length

/-- What R144 makes of it. -/
def foldedSplit (h d : List Byte) : Split := ⟨h.map foldCase, d.map (fun x => reverseChar (foldCase x))⟩

theorem PassesChecks.validate_eq {h d : List Byte} (hp : PassesChecks h d) :
    validate (h ++ 0x31#8 :: d).length (h ++ 0x31#8 :: d) = .ok (foldedSplit h d) := by
  have hpos := List.length_pos_iff.mpr hp.hrp
  have hdata := hp.data
  rw [validate_split (by simp; omega) hp.length hp.range hp.unmixed hp.sep, if_neg hp.hrp, if_neg (by simp; omega),
    foldedSplit]

/-- The cut at the last separator is the one the decoder makes, and nothing else passes. -/
theorem passesChecks_of_validate {h d : List Byte} {sp : Split} (hsep : 0x31#8 ∉ d)
    (hv : validate (h ++ 0x31#8 :: d).length (h ++ 0x31#8 :: d) = .ok sp) : PassesChecks h d := by
  obtain ⟨hmin, hmax, hrange, hunmixed, -⟩ := validate_ok hv
  rw [validate_split hmin hmax hrange hunmixed hsep] at hv
  by_cases hne : h = []
  · rw [if_pos hne] at hv
    cases hv
  · rw [if_neg hne] at hv
    by_cases hl : h.length + 7 > (h ++ 0x31#8 :: d).length
    · rw [if_pos hl] at hv
      cases hv
    · exact ⟨hmax, hrange, hunmixed, hsep, hne, by simp only [List.length_append, List.length_cons] at hl; omega⟩

theorem rejected_foldedSplit (h d : List Byte) : (foldedSplit h d).rejected = true ↔
    specResidue h d ≠ 1#32 ∨ ∃ x ∈ d, foldCase x ∉ charsetTable := by
  rw [Split.rejected, Bool.or_eq_true, foldedSplit, residue_split, inv_split, bne_iff_ne]

theorem accepted_foldedSplit (h d : List Byte) : (foldedSplit h d).rejected = false ↔
    specResidue h d = 1#32 ∧ ∀ x ∈ d, foldCase x ∈ charsetTable := by
  rw [Bool.eq_false_iff, Ne, rejected_foldedSplit]
  simp

/-! ### The obligations -/

/-- Settles O38: each defect is one error of `validate`, which DEC.RUN reports. -/
theorem decRunReportsTheFirstDefect : Obligations.DecRunReportsTheFirstDefect := by
  intro s hw
  refine ⟨fun hl => ?tooLong, fun hs => ?tooShort, fun hmin hmax => ⟨fun hr => ?outOfRange, fun hr =>
    ⟨fun hm => ?mixed, fun hm => ⟨fun hsep => ?noSeparator, fun h d hsplit => ?split⟩⟩⟩⟩
  case tooLong => exact exec_decRun_of_error hw (validate_too_long _ hl)
  case tooShort => exact exec_decRun_of_error hw (validate_too_short _ hs)
  case outOfRange => exact exec_decRun_of_error hw (validate_out_of_range hmin hmax hr)
  case mixed => exact exec_decRun_of_error hw (validate_mixed hmin hmax hr hm)
  case noSeparator => exact exec_decRun_of_error hw (validate_no_separator hmin hmax hr hm hsep)
  case split =>
    obtain ⟨hstr, hd⟩ := hsplit
    have hlen := State.str_length hw hmax
    have hv : validate s.str.len.toNat s.str.cells = _ :=
      hstr ▸ validate_split hmin hmax (hstr ▸ hr) (hstr ▸ hm) hd
    rw [hstr, List.length_append, List.length_cons] at hlen
    refine ⟨fun he => ?emptyHrp, fun hne hshort => ?tooFew⟩
    case emptyHrp => exact exec_decRun_of_error hw (c := .emptyHRP) (by rw [hv, if_pos he])
    case tooFew =>
      exact exec_decRun_of_error hw (c := .checksumTooShort) (by rw [hv, if_neg hne, if_pos (by omega)])

/-- Settles O39: past the checks, step 5 tests the specification's residue and the alphabet. -/
theorem decRunVerifiesAndReturns : Obligations.DecRunVerifiesAndReturns := by
  refine ⟨decode_encode .decRun, fun s h d hw hmin hmax hr hm hsplit hne hd => ?_⟩
  obtain ⟨hstr, hsep⟩ := hsplit
  have hlen := State.str_length hw hmax
  have hp : PassesChecks h d := ⟨by rw [← hstr, hlen]; exact hmax, hstr ▸ hr, hstr ▸ hm, hsep, hne, hd⟩
  have hv : validate s.str.len.toNat s.str.cells = .ok (foldedSplit h d) := by
    rw [← hlen, hstr]
    exact hp.validate_eq
  refine ⟨fun hbad => ?_, fun hres hin => ?_⟩
  · rw [← residue_split]
    exact exec_decRun_of_rejected hw hv ((rejected_foldedSplit h d).mpr hbad)
  · obtain ⟨ss, hchars, hdata⟩ := exists_symbols d hin
    have hss : ss.length = d.length := by simpa using (congrArg List.length hchars).symm
    refine ⟨ss.take (d.length - 6), by rw [hchars, List.map_take], ?_⟩
    rw [exec_decRun_of_accepted hw hv ((accepted_foldedSplit h d).mpr ⟨hres, hin⟩), foldedSplit, hdata,
      payload_symbols, hss]

/-- Settles O40: the command and the function take the same cases of `validate` and of step 5. -/
theorem decRunIsTheFunctionDecode : Obligations.DecRunIsTheFunctionDecode := by
  intro s hw
  refine ⟨fun hl => ?_, fun hl => exec_decRun_of_error hw (validate_too_long _ hl)⟩
  have hlen := State.str_length hw hl
  cases hv : validate s.str.len.toNat s.str.cells with
  | error c =>
    rw [decodeString_of_error (hlen ▸ hv)]
    exact ⟨_, exec_decRun_of_error hw hv⟩
  | ok sp =>
    cases hr : sp.rejected with
    | true =>
      rw [decodeString_of_rejected (hlen ▸ hv) hr]
      exact ⟨_, exec_decRun_of_rejected hw hv hr⟩
    | false =>
      rw [decodeString_of_accepted (hlen ▸ hv) hr]
      exact exec_decRun_of_accepted hw hv hr

end Sys2Proof.Machine
end

section
/-! PROOFS. The upper-case copy of a decodable string decodes alike (42_decoder.md R150 (a)). -/

namespace Sys2Proof.Machine

theorem foldCase_toUpperCase (c : Byte) : foldCase (toUpperCase c) = foldCase c := by revert c; decide

theorem isLower_toUpperCase (c : Byte) : isLower (toUpperCase c) = false := by revert c; decide

theorem inRange_toUpperCase {c : Byte} (h : inRange c = true) : inRange (toUpperCase c) = true := by revert c; decide

theorem not_hasLower_map_toUpperCase (str : List Byte) : ¬ HasLower (str.map toUpperCase) := by
  simp [← any_isLower_iff, isLower_toUpperCase]

theorem allInRange_map_toUpperCase {str : List Byte} (h : AllInRange str) : AllInRange (str.map toUpperCase) := by
  rw [← all_inRange_iff, List.all_eq_true] at h ⊢
  exact List.forall_mem_map.mpr fun c hc => inRange_toUpperCase (h c hc)

/-- Settles O43: the copy has the same folded form, which is what decides. -/
theorem upperCaseCopyDecodesAlike : Obligations.UpperCaseCopyDecodesAlike := by
  intro str h d hdec
  obtain ⟨hlen, hrange, -, hne, hfold⟩ := encodes_of_decodeString hdec
  refine decodeString_of_encodes (by rwa [List.length_map]) (allInRange_map_toUpperCase hrange)
    (fun hmixed => not_hasLower_map_toUpperCase str hmixed.2) hne ?_
  rw [← hfold, List.map_map]
  exact List.map_congr_left fun c _ => foldCase_toUpperCase c

end Sys2Proof.Machine
end

section
/-! PROOFS. One replaced character (42_decoder.md R150 (c)): the string still passes the checks, and its residue or its
alphabet test fails. -/

namespace Sys2Proof.Machine

/-! ### The changed string passes the same checks -/

theorem not_hasUpper_iff (str : List Byte) : ¬ HasUpper str ↔ ∀ c ∈ str, isUpper c = false := by
  simp [← any_isUpper_iff]

theorem forall_mem_replaced {P : Byte → Prop} {before after : List Byte} {x y : Byte}
    (h : ∀ c ∈ before ++ x :: after, P c) (hy : P y) : ∀ c ∈ before ++ y :: after, P c := by
  rw [List.forall_mem_append, List.forall_mem_cons] at h ⊢
  exact ⟨h.1, hy, h.2.2⟩

/-- A character of the string gives way to another in [33,126], no upper-case letter. The cut stays where it was: no
separator comes behind it. -/
theorem PassesChecks.replace {h d h' d' before after : List Byte} {x y : Byte} (hp : PassesChecks h d)
    (hcut : h ++ 0x31#8 :: d = before ++ x :: after) (hcut' : h' ++ 0x31#8 :: d' = before ++ y :: after)
    (hlen : h'.length = h.length) (hsep : 0x31#8 ∉ d') (hupper : ¬ HasUpper (before ++ x :: after))
    (hrange : 33 ≤ y.toNat ∧ y.toNat ≤ 126) (hy : isUpper y = false) : PassesChecks h' d' where
  length := by
    have hmax := hp.length
    rw [hcut] at hmax
    rw [hcut']
    simpa using hmax
  range := hcut' ▸ forall_mem_replaced (hcut ▸ hp.range) hrange
  unmixed := by
    rintro ⟨hup, -⟩
    rw [hcut'] at hup
    exact (not_hasUpper_iff _).mpr (forall_mem_replaced ((not_hasUpper_iff _).mp hupper) hy) hup
  sep := hsep
  hrp := List.length_pos_iff.mp (hlen ▸ List.length_pos_iff.mpr hp.hrp)
  data := by
    have hdata := hp.data
    have htotal := congrArg List.length hcut
    have htotal' := congrArg List.length hcut'
    simp only [List.length_append, List.length_cons] at htotal htotal'
    omega

/-! ### The changed character changes the residue -/

theorem polyMod_ne_of_value {u w : Word} (hne : u ≠ w) (hu : u.toNat < 32) (hw : w.toNat < 32)
    (before after : List Word) : polyMod (before ++ u :: after) ≠ polyMod (before ++ w :: after) :=
  oneChangedValueChangesPolyMod before after u w hne
    ((BitVec.toNat_xor u w).trans_lt (Nat.xor_lt_two_pow (by omega) (by omega)))

theorem specResidue_eq (h d : List Byte) :
    specResidue h d = polyMod (hrpExpand (h.map foldCase) ++ d.map specAbsorbed) := rfl

theorem exists_charset_of_mem {x : Byte} (hx : x ∈ charsetTable) : ∃ s, x = charset s := by
  obtain ⟨s, hs⟩ := Option.ne_none_iff_exists'.mp ((reverseChar_eq_none x).not.mpr (not_not.mpr hx))
  exact ⟨s, (reverseChar_eq_some x s).mp hs⟩

theorem specAbsorbed_of_foldCase {x : Byte} {s : Symbol} (hx : foldCase x = charset s) :
    specAbsorbed x = s.setWidth 32 := by
  rw [← absorbedValue_reverse, hx, reverseChar_charset, absorbedValue]

theorem zextSymbol_inj {s t : Symbol} : (s.setWidth 32 : Word) = t.setWidth 32 ↔ s = t := by
  rw [← BitVec.toNat_inj, toNat_zextSymbol, toNat_zextSymbol, BitVec.toNat_inj]

theorem zextSymbol_lt (s : Symbol) : (s.setWidth 32 : Word).toNat < 32 := (toNat_zextSymbol s).trans_lt s.isLt

/-- Two characters of the alphabet that differ are absorbed as different symbols. -/
theorem specResidue_ne_of_data {x y : Byte} (hx : foldCase x ∈ charsetTable) (hy : foldCase y ∈ charsetTable)
    (hne : foldCase x ≠ foldCase y) (h before after : List Byte) :
    specResidue h (before ++ x :: after) ≠ specResidue h (before ++ y :: after) := by
  obtain ⟨s, hs⟩ := exists_charset_of_mem hx
  obtain ⟨t, ht⟩ := exists_charset_of_mem hy
  have hst : (s.setWidth 32 : Word) ≠ t.setWidth 32 := fun e => hne (by rw [hs, ht, zextSymbol_inj.mp e])
  simp only [specResidue_eq, List.map_append, List.map_cons, ← List.append_assoc, specAbsorbed_of_foldCase hs,
    specAbsorbed_of_foldCase ht]
  exact polyMod_ne_of_value hst (zextSymbol_lt s) (zextSymbol_lt t) _ _

/-- The high and the low part of an HRP character, as `hrpExpand` lays them out. -/
def highPart (c : Byte) : Word := (c >>> 5).setWidth 32

def lowPart (c : Byte) : Word := (c &&& 31#8).setWidth 32

theorem hrpExpand_eq (h : List Byte) : hrpExpand h = h.map highPart ++ 0#32 :: h.map lowPart :=
  List.append_assoc ..

theorem highPart_inj {x y : Byte} : highPart x = highPart y ↔ x.toNat / 32 = y.toNat / 32 := by
  rw [← BitVec.toNat_inj, highPart, highPart, toNat_high, toNat_high]

theorem lowPart_inj {x y : Byte} : lowPart x = lowPart y ↔ x.toNat % 32 = y.toNat % 32 := by
  rw [← BitVec.toNat_inj, lowPart, lowPart, toNat_low, toNat_low]

theorem highPart_lt (c : Byte) : (highPart c).toNat < 32 :=
  (toNat_high c).trans_lt (Nat.div_lt_of_lt_mul (c.isLt.trans (by decide)))

theorem lowPart_lt (c : Byte) : (lowPart c).toNat < 32 := (toNat_low c).trans_lt (Nat.mod_lt _ (by decide))

/-- The two parts are the whole character. -/
theorem eq_of_parts {x y : Byte} (hhigh : highPart x = highPart y) (hlow : lowPart x = lowPart y) : x = y := by
  rw [highPart_inj] at hhigh
  rw [lowPart_inj] at hlow
  exact BitVec.eq_of_toNat_eq (by omega)

/-- A changed HRP character that keeps one part changes the other, one absorbed value. -/
theorem polyMod_hrpExpand_ne {x y : Byte} (hne : x ≠ y) (hpart : highPart x = highPart y ∨ lowPart x = lowPart y)
    (before after : List Byte) (vs : List Word) :
    polyMod (hrpExpand (before ++ x :: after) ++ vs) ≠ polyMod (hrpExpand (before ++ y :: after) ++ vs) := by
  have parts (z : Byte) : hrpExpand (before ++ z :: after) ++ vs = before.map highPart ++ highPart z ::
      (after.map highPart ++ 0#32 :: before.map lowPart ++ lowPart z :: (after.map lowPart ++ vs)) := by
    simp [hrpExpand_eq]
  rw [parts, parts]
  rcases hpart with hhigh | hlow
  · have hlow : lowPart x ≠ lowPart y := fun hlow => hne (eq_of_parts hhigh hlow)
    rw [hhigh]
    simpa only [List.append_assoc, List.cons_append] using
      polyMod_ne_of_value hlow (lowPart_lt x) (lowPart_lt y)
        (before.map highPart ++ highPart y :: (after.map highPart ++ 0#32 :: before.map lowPart))
        (after.map lowPart ++ vs)
  · have hhigh : highPart x ≠ highPart y := fun hhigh => hne (eq_of_parts hhigh hlow)
    rw [hlow]
    exact polyMod_ne_of_value hhigh (highPart_lt x) (highPart_lt y) _ _

theorem specResidue_ne_of_hrp {x y : Byte} (hne : foldCase x ≠ foldCase y)
    (hpart : highPart (foldCase x) = highPart (foldCase y) ∨ lowPart (foldCase x) = lowPart (foldCase y))
    (before after d : List Byte) : specResidue (before ++ x :: after) d ≠ specResidue (before ++ y :: after) d := by
  simp only [specResidue_eq, List.map_append, List.map_cons]
  exact polyMod_hrpExpand_ne hne hpart _ _ _

/-! ### The changed string is rejected -/

/-- A decodable string passes the checks at its last separator, and step 5 accepts it. -/
theorem accepted_of_decodeString {h d p : List Byte} {e : List Symbol} (hsep : 0x31#8 ∉ d)
    (hdec : decodeString (h ++ 0x31#8 :: d) = .ok (p, e)) :
    PassesChecks h d ∧ (foldedSplit h d).rejected = false := by
  obtain ⟨sp, hv, -, hr, -⟩ := (decodeString_eq_ok_iff ..).mp hdec
  have hp := passesChecks_of_validate hsep hv
  obtain rfl := Except.ok.inj (hp.validate_eq.symm.trans hv)
  exact ⟨hp, hr⟩

theorem rejected_of_changed_data {h before after : List Byte} {x y : Byte}
    (hacc : (foldedSplit h (before ++ x :: after)).rejected = false) (hne : foldCase x ≠ foldCase y) :
    (foldedSplit h (before ++ y :: after)).rejected = true := by
  obtain ⟨hres, halphabet⟩ := (accepted_foldedSplit _ _).mp hacc
  rw [rejected_foldedSplit]
  by_cases hy : foldCase y ∈ charsetTable
  · exact .inl (hres ▸ (specResidue_ne_of_data (halphabet x (by simp)) hy hne h before after).symm)
  · exact .inr ⟨y, by simp, hy⟩

theorem rejected_of_changed_hrp {before after d : List Byte} {x y : Byte}
    (hacc : (foldedSplit (before ++ x :: after) d).rejected = false) (hne : foldCase x ≠ foldCase y)
    (hpart : highPart (foldCase x) = highPart (foldCase y) ∨ lowPart (foldCase x) = lowPart (foldCase y)) :
    (foldedSplit (before ++ y :: after) d).rejected = true := by
  obtain ⟨hres, -⟩ := (accepted_foldedSplit _ _).mp hacc
  rw [rejected_foldedSplit]
  exact .inl (hres ▸ (specResidue_ne_of_hrp hne hpart before after d).symm)

/-- Settles O44: the changed character is outside the alphabet or another symbol, which changes the residue. -/
theorem oneChangedDataCharacterIsDetected : Obligations.OneChangedDataCharacterIsDetected := by
  intro before after h x y d hdec hupper hmem hx hafter hyx hlo hhi hy hysep
  obtain ⟨p, q, rfl, hq⟩ := exists_split before hmem
  have assoc (z : Byte) : (p ++ 0x31#8 :: q) ++ z :: after = p ++ 0x31#8 :: (q ++ z :: after) := by simp
  have hy' : isUpper y = false := Bool.eq_false_iff.mpr ((isUpper_iff y).not.mpr hy)
  have hx' : isUpper x = false := (not_hasUpper_iff _).mp hupper x (by simp)
  rw [assoc] at hdec ⊢
  obtain ⟨hp, hacc⟩ := accepted_of_decodeString (by simp [hq, hafter, hx.symm]) hdec
  have hp' : PassesChecks p (q ++ y :: after) :=
    hp.replace (assoc x).symm (assoc y).symm rfl (by simp [hq, hafter, hysep.symm]) hupper ⟨hlo, hhi⟩ hy'
  refine decodeString_of_rejected hp'.validate_eq (rejected_of_changed_data hacc ?_)
  rw [foldCase_of_not_upper hx', foldCase_of_not_upper hy']
  exact hyx.symm

/-- Settles O45: the changed character keeps one of its two parts, and the other changes the residue. -/
theorem oneChangedHrpCharacterIsDetected : Obligations.OneChangedHrpCharacterIsDetected := by
  intro before after h x y d hdec hupper hmem hyx hlo hhi hy hpart
  obtain ⟨p, q, rfl, hq⟩ := exists_split after hmem
  have assoc (z : Byte) : before ++ z :: (p ++ 0x31#8 :: q) = (before ++ z :: p) ++ 0x31#8 :: q := by simp
  have hy' : isUpper y = false := Bool.eq_false_iff.mpr ((isUpper_iff y).not.mpr hy)
  have hx' : isUpper x = false := (not_hasUpper_iff _).mp hupper x (by simp)
  rw [assoc] at hdec ⊢
  obtain ⟨hp, hacc⟩ := accepted_of_decodeString hq hdec
  have hp' : PassesChecks (before ++ y :: p) q :=
    hp.replace (assoc x).symm (assoc y).symm (by simp) hq hupper ⟨hlo, hhi⟩ hy'
  refine decodeString_of_rejected hp'.validate_eq (rejected_of_changed_hrp hacc ?_ ?_)
  · rw [foldCase_of_not_upper hx', foldCase_of_not_upper hy']
    exact hyx.symm
  · rw [foldCase_of_not_upper hx', foldCase_of_not_upper hy', highPart_inj, lowPart_inj]
    exact hpart

end Sys2Proof.Machine
end

section
/-! PROOFS. The buffer transfer and system commands (43_buffer_and_system.md R160, R162 to R174): the word of each, what
it answers, and the whole next state. -/

namespace Sys2Proof

/-- A command whose operand is its word's low byte is decoded from its row's pattern with the byte put in. -/
theorem decode_pattern_or_operand (op sub : BitVec 4) {c : Byte → Instr} {a : Byte}
    (hc : encode (c a) = assembleFields op sub a) :
    decode (assembleFields op sub 0#8 ||| a.setWidth 16) = .ok (c a) := by
  rw [← assembleFields_eq_or, ← hc, decode_encode]

end Sys2Proof

namespace Sys2Proof.Machine

/-! ### Reads (R166 to R169) -/

section
variable {w : Nat} {l : List (BitVec w)} {i : Nat}

theorem answerRead_getElem?_of_lt (s : State) (h : i < l.length) :
    answerRead s l[i]? = .next (answered s (l[i].setWidth 32)) := by
  rw [List.getElem?_eq_getElem h]
  rfl

theorem answerRead_getElem?_of_le (s : State) (h : l.length ≤ i) :
    answerRead s l[i]? = .next (protocolFault s 11#4) := by
  rw [List.getElem?_eq_none h]
  rfl

end

section
variable {s : State} (hw : Memory.wf s) (i : Byte)
include hw

theorem exec_rdH : exec (.rdH i) s = answerRead s s.hrp.cells[i.toNat]? :=
  congrArg (answerRead s) (State.hrp_read hw i.toNat)

theorem exec_rdS : exec (.rdS i) s = answerRead s s.sym.cells[i.toNat]? :=
  congrArg (answerRead s) (State.sym_read hw i.toNat)

theorem exec_rdT : exec (.rdT i) s = answerRead s s.str.cells[i.toNat]? :=
  congrArg (answerRead s) (State.str_read hw i.toNat)

end

theorem exec_rdK (i : Byte) (s : State) : exec (.rdK i) s = answerRead s s.cks.toList[i.toNat]? := rfl

/-- Settles O14: each read is a look into a list, of six registers or of as many cells as the valid count says. -/
theorem readsAnswerTheCellOrIndexRange : Obligations.ReadsAnswerTheCellOrIndexRange := by
  refine ⟨fun i => ⟨decode_pattern_or_operand 6 0 rfl, decode_pattern_or_operand 6 1 rfl,
    decode_pattern_or_operand 6 2 rfl, decode_pattern_or_operand 6 3 rfl⟩, fun s i hw => ?_⟩
  rw [exec_rdH hw, exec_rdS hw, exec_rdT hw, exec_rdK]
  obtain ⟨hhrp : s.hrp.cells.length = min s.hrp.len.toNat 83, hsym : s.sym.cells.length = min s.sym.len.toNat 88,
    hstr : s.str.cells.length = min s.str.len.toNat 90⟩ := hw
  rw [← hhrp, ← hsym, ← hstr]
  exact ⟨answerRead_getElem?_of_lt s, Iff.rfl, answerRead_getElem?_of_le s,
    answerRead_getElem?_of_lt s, Iff.rfl, answerRead_getElem?_of_le s,
    answerRead_getElem?_of_lt s, Iff.rfl, answerRead_getElem?_of_le s,
    answerRead_getElem?_of_lt (l := s.cks.toList) s, answerRead_getElem?_of_le (l := s.cks.toList) s⟩

/-! ### Pushes (R163 to R165) -/

theorem Buffer.push_eq {w : Nat} (cap : Nat) (b : Buffer w) (v : BitVec w) : b.push cap v =
    ⟨if b.len.toNat < cap then b.cells ++ [v] else b.cells, if b.len.toNat < 255 then b.len + 1#8 else 255#8⟩ := by
  have hlen : (b.push cap v).len = if b.len.toNat < 255 then b.len + 1#8 else 255#8 := by
    apply BitVec.eq_of_toNat_eq
    rw [Buffer.push_len]
    split
    next h =>
      rw [BitVec.toNat_add, BitVec.toNat_ofNat]
      omega
    next h => exact Nat.min_eq_right (by omega)
  exact congrArg (Buffer.mk _) hlen

theorem exec_pushS_out_of_range {arg : Byte} (h : 32 ≤ arg.toNat) (s : State) :
    exec (.pushS arg) s = .next (protocolFault s 10#4) := by
  simp only [exec, execPushS, symbolOperand_none h]
  rfl

/-- Settles O16: `Buffer.push_eq` for the buffer pushed to; a byte of 32 or more is no symbol. -/
theorem pushesAppendAndCount : Obligations.PushesAppendAndCount := by
  refine ⟨fun b => ⟨decode_pattern_or_operand 5 0 rfl, decode_pattern_or_operand 5 1 rfl,
    decode_pattern_or_operand 5 2 rfl⟩, fun s => ⟨fun b => ?_, fun v => ?_, fun _ h => exec_pushS_out_of_range h s,
    fun b => ?_⟩⟩
  · rw [exec_pushH, Buffer.push_eq]
    rfl
  · rw [← symbolArg, exec_pushS_symbol, Buffer.push_eq]
    rfl
  · rw [exec_pushT, Buffer.push_eq]
    rfl

/-! ### NOP and the register reads (R160, R170 to R174) -/

/-- Settles O12: each of the five is an `answer`, which adds the response to the record and writes nothing else. -/
theorem nopAndRegisterReads : Obligations.NopAndRegisterReads :=
  ⟨decode_encode .nop, decode_encode .rdregChk, decode_encode .rdregHlen, decode_encode .rdregSlen,
    decode_encode .rdregTlen, fun s => ⟨State.answer_eq s 0#32, State.answer_eq s s.chk,
      State.answer_eq s (s.hrp.len.setWidth 32), State.answer_eq s (s.sym.len.setWidth 32),
      State.answer_eq s (s.str.len.setWidth 32)⟩⟩

theorem statusWord_err (s : State) : (statusWord s).extractLsb' 0 4 = s.err := by
  unfold statusWord
  ext k hk
  have hk32 : k < 32 := by omega
  simp [hk, hk32]

theorem statusWord_pflt (s : State) : (statusWord s).getLsbD 4 = s.pflt := by
  simp [statusWord]

theorem statusWord_high (s : State) : (statusWord s).extractLsb' 5 27 = 0#27 := by
  unfold statusWord
  ext k hk
  have herr : s.err.getLsbD (5 + k) = false := BitVec.getLsbD_of_ge _ _ (by omega)
  have hpos : 5 + k - 4 ≠ 0 := by omega
  simp [herr, hpos]

/-- Settles O13: the command answers `statusWord`, of which the three lemmas name every bit. -/
theorem statusReadsErrAndPflt : Obligations.StatusReadsErrAndPflt :=
  ⟨decode_encode .rdregStatus, fun s => ⟨statusWord s, State.answer_eq s _, statusWord_err s, statusWord_pflt s,
    statusWord_high s⟩⟩

/-! ### CLR (R162) -/

theorem encode_clr (m : BitVec 3) : encode (.clr m) = 0x4000#16 ||| (m.setWidth 16 <<< 8) := by
  revert m
  decide

/-- Settles O15: the mask is low in the word's `sub` field, and CLR is an `answer` after its buffers' choice. -/
theorem clrEmptiesTheNamedBuffers : Obligations.ClrEmptiesTheNamedBuffers :=
  ⟨fun m => encode_clr m ▸ decode_encode (.clr m), fun _ _ => State.answer_eq _ 0#32⟩

end Sys2Proof.Machine
end

section
/-! PROOFS. What a failing command has written (60_exceptions.md R186): every end of a command is a success, which
answers code 0, or a failure, whose whole next state is a row of the table. -/

namespace Sys2Proof.Machine

section
variable {s t : State} {r : Response} (hresp : t.responses = s.responses ++ [r])
include hresp

/-- The response a command adds to the record is determined by the two records. -/
theorem response_eq_of_added {r' : Response} (h : t.responses = s.responses ++ [r']) : r = r' := by
  simpa using hresp.symm.trans h

variable (hfail : r.err ≠ 0#4)
include hfail

theorem not_added_success {v : Word} : t.responses ≠ s.responses ++ [⟨0#4, v⟩] :=
  fun h => hfail (congrArg Response.err (response_eq_of_added hresp h))

/-- A command that completes (R78) has not failed. -/
theorem false_of_answer {u : State} {v : Word} (h : u.answer v = .next t) (kept : u.responses = s.responses) :
    False := by
  obtain rfl := next_injective h
  exact not_added_success (v := v) hresp hfail (congrArg (· ++ _) kept)

/-- A command that either succeeds or fails in one way: when its code is not 0, it has failed that way. -/
theorem failure_of_two_ends {res : Result} {f : State} {k : BitVec 4} (h : res = .next t)
    (ends : (∃ u v, res = .next u ∧ u.responses = s.responses ++ [⟨0#4, v⟩]) ∨ res = .next f)
    (hf : f.responses = s.responses ++ [⟨k, 0#32⟩]) : r.val = 0#32 ∧ r.err = k ∧ t = f := by
  rcases ends with ⟨u, v, e, hu⟩ | e <;> obtain rfl := next_injective (e.symm.trans h)
  · exact absurd hu (not_added_success hresp hfail)
  · obtain rfl := response_eq_of_added hresp hf
    exact ⟨rfl, rfl, rfl⟩

theorem answerRead_failure {w : Nat} {o : Option (BitVec w)} (h : answerRead s o = .next t) :
    r.val = 0#32 ∧ r.err = 11#4 ∧ t = protocolFault s 11#4 :=
  failure_of_two_ends hresp hfail h
    ((answerRead_cases s o).imp (fun ⟨_, _, e⟩ => ⟨_, _, e, rfl⟩) And.right) rfl

theorem execPmAbs_failure {a : Byte} (h : execPmAbs a s = .next t) :
    r.val = 0#32 ∧ r.err = 10#4 ∧ t = protocolFault s 10#4 :=
  failure_of_two_ends hresp hfail h
    ((execPmAbs_cases a s).imp (fun ⟨_, _, e⟩ => ⟨_, _, e, rfl⟩) And.right) rfl

theorem execPushS_failure {a : Byte} (h : execPushS a s = .next t) :
    r.val = 0#32 ∧ r.err = 10#4 ∧ t = protocolFault s 10#4 :=
  failure_of_two_ends hresp hfail h
    ((execPushS_cases a s).imp (fun ⟨_, _, e⟩ => ⟨_, _, e, rfl⟩) And.right) rfl

theorem execPmHrpx_failure (h : execPmHrpx s = .next t) : r.val = 0#32 ∧ r.err = 9#4 ∧ t = ended s s.chk 9#4 :=
  failure_of_two_ends hresp hfail h
    ((execPmHrpx_cases s).imp (fun ⟨_, e⟩ => ⟨_, _, e, rfl⟩) And.right) rfl

theorem execCkCreate_failure (h : execCkCreate s = .next t) : r.val = 0#32 ∧ r.err = 9#4 ∧ t = ended s s.chk 9#4 :=
  failure_of_two_ends hresp hfail h
    ((execCkCreate_cases s).imp (fun ⟨_, _, e⟩ => ⟨_, _, e, rfl⟩) And.right) rfl

theorem execEncRun_failure (h : execEncRun s = .next t) :
    r.val = 0#32 ∧ r.err = 9#4 ∧ t = (ended s s.chk 9#4).setStr .empty :=
  failure_of_two_ends hresp hfail h
    ((execEncRun_cases s).imp (fun ⟨_, e⟩ => ⟨_, _, e, rfl⟩) And.right) rfl

/-- CK.VERIFY fails with the residue in `CHK`, or with nothing written (R114). -/
theorem execCkVerify_failure (h : execCkVerify s = .next t) : r.val = 0#32 ∧
    ((r.err = 8#4 ∧ t = ended s (polyMod (verifyValues s.hrpBytes s.symbols)) 8#4) ∨
      (r.err = 9#4 ∧ t = ended s s.chk 9#4)) := by
  rcases execCkVerify_cases s with ⟨-, -, p, k, rfl, rfl, e⟩ | ⟨-, e⟩
  · by_cases hp : polyMod (verifyValues s.hrpBytes s.symbols) = 1#32
    · rw [if_pos hp] at e
      obtain rfl := next_injective (e.symm.trans h)
      exact absurd rfl (not_added_success hresp hfail)
    · rw [if_neg hp] at e
      obtain ⟨hval, herr, ht⟩ := failure_of_two_ends hresp hfail h (.inr e) rfl
      exact ⟨hval, .inl ⟨herr, ht⟩⟩
  · obtain ⟨hval, herr, ht⟩ := failure_of_two_ends hresp hfail h (.inr e) rfl
    exact ⟨hval, .inr ⟨herr, ht⟩⟩

/-- DEC.RUN fails in steps 1 to 4 with `CHK` kept, or in step 5 with the residue in it (R145, R147). -/
theorem execDecRun_failure (h : execDecRun s = .next t) : r.val = 0#32 ∧
    ((1 ≤ r.err.toNat ∧ r.err.toNat ≤ 7 ∧ t = decFailed s s.chk r.err) ∨
      (r.err = 8#4 ∧ ∃ p d, SplitsAs s.strBytes p d ∧ t = decFailed s (specResidue p d) 8#4)) := by
  rcases execDecRun_cases s with ⟨c, hv, e⟩ | ⟨sp, hv, -, e⟩ | ⟨sp, -, -, e⟩
  · obtain ⟨hval, herr, ht⟩ := failure_of_two_ends hresp hfail h (.inr e) rfl
    obtain ⟨hlo, hhi, -⟩ := validate_error hv
    rw [← herr] at hlo hhi ht
    exact ⟨hval, .inl ⟨hlo, hhi, ht⟩⟩
  · obtain ⟨hval, herr, ht⟩ := failure_of_two_ends hresp hfail h (.inr e) rfl
    obtain ⟨-, -, -, -, p, d, hsplit, -, -, rfl⟩ := validate_ok hv
    rw [residue_split] at ht
    exact ⟨hval, .inr ⟨herr, p, d, hsplit, ht⟩⟩
  · obtain rfl := next_injective (e.symm.trans h)
    exact absurd rfl (not_added_success hresp hfail)

end

/-- Settles O48: a command with a row has that row's failure, and every other command only answers. -/
theorem failureWritesOnlyItsRow : Obligations.FailureWritesOnlyItsRow := by
  refine ⟨fun i s t r hw h hresp hfail => ?_, fun w s e hw => execWord_error hw s⟩
  cases i with
  | decRun => exact State.strBytes_of_wf hw ▸ execDecRun_failure hresp hfail h
  | ckVerify =>
    have row := execCkVerify_failure hresp hfail h
    rwa [State.hrpBytes_of_wf hw, State.symbols_of_wf hw] at row
  | ckCreate => exact execCkCreate_failure hresp hfail h
  | pmHrpx => exact execPmHrpx_failure hresp hfail h
  | encRun => exact execEncRun_failure hresp hfail h
  | pmAbs a => exact execPmAbs_failure hresp hfail h
  | pushS a => exact execPushS_failure hresp hfail h
  | rdH a | rdS a | rdT a | rdK a => exact answerRead_failure hresp hfail h
  | nop | rst | pmInit | clr m | pushH b | pushT b | rdregStatus | rdregChk | rdregHlen | rdregSlen | rdregTlen =>
    exact (false_of_answer hresp hfail h rfl).elim

end Sys2Proof.Machine
end

section
/-! PROOFS. A repeated operation (60_exceptions.md R187): its own next state holds the same operands, so it takes the
same path again. -/

namespace Sys2Proof.Machine

/-! ### The operations from any state, by their operands' valid contents -/

theorem exec_ckCreate_of_fits {s : State} (hh : s.hrp.len.toNat ≤ 83) (hd : s.sym.len.toNat ≤ 88) :
    exec .ckCreate s = .next ((ended s (createResidue s.hrpBytes s.symbols) 0#4).setCks
      (createChecksum s.hrpBytes s.symbols)) :=
  if_neg (not_or.mpr ⟨not_lt.mpr hh, not_lt.mpr hd⟩)

theorem exec_ckVerify_of_fits {s : State} (hh : s.hrp.len.toNat ≤ 83) (hd : s.sym.len.toNat ≤ 88) :
    exec .ckVerify s = .next (ended s (polyMod (verifyValues s.hrpBytes s.symbols))
      (if polyMod (verifyValues s.hrpBytes s.symbols) = 1#32 then 0#4 else 8#4)) := by
  rcases execCkVerify_cases s with ⟨-, -, p, k, rfl, rfl, e⟩ | ⟨hl, -⟩
  · exact e
  · omega

theorem exec_encRun_of_fits {s : State} (hl : s.hrp.len.toNat + s.sym.len.toNat + 7 ≤ 90) :
    exec .encRun s = .next (((ended s (createResidue s.hrpBytes s.symbols) 0#4).setCks
      (createChecksum s.hrpBytes s.symbols)).setStr (.ofList (encodeString s.hrpBytes s.symbols))) :=
  if_neg (not_lt.mpr hl)

theorem exec_decRun_of_validate_error {s : State} {c : Code}
    (hv : validate s.str.len.toNat s.strBytes = .error c) : exec .decRun s = .next (decFailed s s.chk c.bits) := by
  rcases execDecRun_cases s with ⟨c', hv', e⟩ | ⟨sp, hv', -⟩ | ⟨sp, hv', -⟩ <;> cases hv.symm.trans hv'
  exact e

theorem exec_decRun_of_validate_rejected {s : State} {sp : Split}
    (hv : validate s.str.len.toNat s.strBytes = .ok sp) (hr : sp.rejected = true) :
    exec .decRun s = .next (decFailed s sp.residue 8#4) := by
  rcases execDecRun_cases s with ⟨c, hv', -⟩ | ⟨sp', hv', -, e⟩ | ⟨sp', hv', hr', -⟩ <;> cases hv.symm.trans hv'
  · exact e
  · exact absurd (hr.symm.trans hr') nofun

/-! ### The repetition -/

/-- `t` with the response `r` once more. -/
def State.answeredAgain (t : State) (r : Response) : State := { t with responses := t.responses ++ [r] }

section
variable {s t : State} {r : Response} (hresp : t.responses = s.responses ++ [r])
include hresp

theorem exec_ckCreate_again (h : exec .ckCreate s = .next t) : exec .ckCreate t = .next (t.answeredAgain r) := by
  rcases execCkCreate_cases s with ⟨hh, hd, e⟩ | ⟨hl, e⟩ <;> obtain rfl := next_injective (e.symm.trans h) <;>
    obtain rfl := response_eq_of_added hresp rfl
  · exact exec_ckCreate_of_fits hh hd
  · exact exec_ckCreate_too_long hl

theorem exec_ckVerify_again (h : exec .ckVerify s = .next t) : exec .ckVerify t = .next (t.answeredAgain r) := by
  rcases execCkVerify_cases s with ⟨hh, hd, p, k, rfl, rfl, e⟩ | ⟨hl, e⟩ <;>
    obtain rfl := next_injective (e.symm.trans h) <;> obtain rfl := response_eq_of_added hresp rfl
  · exact exec_ckVerify_of_fits hh hd
  · exact exec_ckVerify_too_long hl

theorem exec_encRun_again (h : exec .encRun s = .next t) : exec .encRun t = .next (t.answeredAgain r) := by
  rcases execEncRun_cases s with ⟨hl, e⟩ | ⟨hl, e⟩ <;> obtain rfl := next_injective (e.symm.trans h) <;>
    obtain rfl := response_eq_of_added hresp rfl
  · exact exec_encRun_of_fits hl
  · exact exec_encRun_too_long hl

theorem exec_decRun_again (h : exec .decRun s = .next t) : exec .decRun t = .next (t.answeredAgain r) := by
  rcases execDecRun_cases s with ⟨c, hv, e⟩ | ⟨sp, hv, hr, e⟩ | ⟨sp, hv, hr, e⟩ <;>
    obtain rfl := next_injective (e.symm.trans h) <;> obtain rfl := response_eq_of_added hresp rfl
  · exact exec_decRun_of_validate_error hv
  · exact exec_decRun_of_validate_rejected hv hr
  · exact (exec_decRun_eq_decAccepted_iff_validate _ _ _).mpr ⟨sp, hv, rfl, hr, rfl⟩

end

/-- Settles O54: none of the four writes what it reads, so the guards and the results are the same again. -/
theorem repeatedOperationRepeats : Obligations.RepeatedOperationRepeats := by
  intro i hi s t r h hresp
  simp only [List.mem_cons, List.not_mem_nil, or_false] at hi
  rcases hi with rfl | rfl | rfl | rfl
  · exact exec_ckCreate_again hresp h
  · exact exec_ckVerify_again hresp h
  · exact exec_encRun_again hresp h
  · exact exec_decRun_again hresp h

end Sys2Proof.Machine
end

section
/-! PROOFS. How many values each computation absorbs (70_reset_and_hazards.md R211, R212). -/

namespace Sys2Proof.Machine

/-! ### The absorbed values, counted -/

@[simp] theorem length_zextSymbols (d : List Symbol) : (zextSymbols d).length = d.length := List.length_map _

theorem length_verifyValues (h : List Byte) (d : List Symbol) :
    (verifyValues h d).length = 2 * h.length + 1 + d.length := by
  rw [verifyValues, List.length_append, length_hrpExpand, length_zextSymbols]

theorem length_createValues (h : List Byte) (d : List Symbol) :
    (createValues h d).length = 2 * h.length + 1 + d.length + 6 := by
  rw [createValues_eq, List.length_append, length_verifyValues, List.length_replicate]

/-! ### The capacities bound what a state can hold -/

theorem State.hrpBytes_length_le_cap (s : State) : s.hrpBytes.length ≤ 83 :=
  Nat.le_trans (Buffer.valid_length_le _ _) (Buffer.count_le_cap _ _)

theorem State.symbols_length_le_cap (s : State) : s.symbols.length ≤ 88 :=
  Nat.le_trans (Buffer.valid_length_le _ _) (Buffer.count_le_cap _ _)

theorem length_createValues_of_state_le (s : State) : (createValues s.hrpBytes s.symbols).length ≤ 261 := by
  have hh := s.hrpBytes_length_le_cap
  have hd := s.symbols_length_le_cap
  rw [length_createValues]
  omega

/-! ### A string that reaches verification -/

/-- The cut drops one character, the separator. -/
theorem length_of_validate {n : Nat} {str : List Byte} {sp : Split} (hv : validate n str = .ok sp) :
    str.length = sp.hrp.length + 1 + sp.data.length := by
  obtain ⟨-, -, -, -, h, d, ⟨rfl, -⟩, -, -, rfl⟩ := validate_ok hv
  simp only [List.length_append, List.length_cons, List.length_map]
  omega

/-- The prefix is absorbed twice, and the zero between its two parts stands for the separator. -/
theorem length_absorbed_of_validate {n : Nat} {str : List Byte} {sp : Split} (hv : validate n str = .ok sp) :
    (hrpExpand sp.hrp ++ sp.data.map absorbedValue).length = str.length + sp.hrp.length := by
  rw [List.length_append, length_hrpExpand, List.length_map, length_of_validate hv]
  omega

/-- Settles O33: the lists' lengths, the capacities 83 and 88 in them, and the lengths of a validated string's parts. -/
theorem absorbCounts : Obligations.AbsorbCounts :=
  ⟨fun h d => ⟨length_createValues h d, length_verifyValues h d⟩, length_createValues_of_state_le,
    fun _ _ _ hn hv => hn ▸ length_absorbed_of_validate hv⟩

end Sys2Proof.Machine
end
